-- ==== Sys2Proof/Word.lean ====
section
/-! DEFINITION. The two word widths of the block (00_scope.md R9, R10). -/

namespace Sys2Proof

/-- A scan-code byte, an ascii value or a label character: 8 bits (00_scope.md R10). -/
abbrev Byte := BitVec 8

/-- The diagnostic counter's word: `DIAG_W` = 32 bits (00_scope.md R9, 10_state.md R33). -/
abbrev DiagWord := BitVec 32

end Sys2Proof
end

