-- ==== Sys2Proof/Syntax.lean ====
section
/-! DEFINITION. What the block is told at one clock edge: the sample of its input ports, which is
this hardware's instruction word (10_state.md R40, 30_encoding.md R89), and the instructions
(opcode_table.json). -/

namespace Sys2Proof

/-- The input ports as sampled at one rising edge (10_state.md R40, R43). `clk` itself is the edge.
`lblPos` is written as a number, since `LEN_W` is a parameter; the port carries its low `LEN_W` bits
(`lblPosPort`, log entry 9). No step reads it. -/
structure Inputs where
  /-- synchronous reset, active high -/
  rst : Bool
  /-- synchronous soft clear, active high -/
  clr : Bool
  /-- the producer offers a byte -/
  inValid : Bool
  /-- the offered scan-code byte -/
  inByte : Byte
  /-- the consumer takes the pending event -/
  evAck : Bool
  /-- the character position to read on the label port -/
  lblPos : Nat
  deriving DecidableEq, Repr, Inhabited

/-- The three disjoint classes of input bytes (30_encoding.md R81). -/
inductive ByteClass where
  | prefixE0
  | prefixF0
  | code
  deriving DecidableEq, Repr

/-- One constructor per row of opcode_table.json: the three byte instructions (40_decode_fsm.md
R103, R104, R105) and the four control actions (42_control.md R180-R183). -/
inductive Instr where
  /-- PREFIX_E0: the byte 0xE0 is accepted -/
  | prefixE0
  /-- PREFIX_F0: the byte 0xF0 is accepted -/
  | prefixF0
  /-- CODE: any other byte is accepted; the byte is its own operand (30_encoding.md R83) -/
  | code (b : Byte)
  /-- RST: synchronous reset -/
  | rst
  /-- CLR: soft clear -/
  | clr
  /-- ACK: consume the pending event -/
  | ack
  /-- IDLE: nothing applies -/
  | idle
  deriving DecidableEq, Repr

end Sys2Proof
end

