-- ==== Sys2Proof/Config.lean ====
section
/-! DEFINITION. The implementation parameters of 00_scope.md R9: those the spec fixes as constants,
those it leaves OPEN as the structure `Config`, and the one free value of the model. -/

namespace Sys2Proof

/-- One row of the scan-code ROM (20_memory.md R50). `none` is distinct from every byte. -/
structure Row where
  label : List Byte
  ascii : Option Byte
  sb : Option Byte
  ext : Option Byte
  deriving DecidableEq, Repr

/-- The ROM rows `ROM[0..N-1]` (10_state.md R32); `N` is the length. -/
abbrev Rom := List Row

/-- The parameters 00_scope.md R9 marks OPEN. The others of R9 are fixed: `N` is `rom.length`,
`IDX_W` and `LEN_W` are derived (`idxW`, `lenW` in Machine/Rom.lean), and `ASCII_CLASS` is PRESENCE,
the policy `isAsciiRow` implements (20_memory.md R56). -/
structure Config where
  rom : Rom
  labelMax : Nat
  deriving DecidableEq, Repr

namespace Config

/-- `PFX_EXT`, the extended prefix byte (00_scope.md R9). -/
def pfxExt : Byte := 0xE0

/-- `PFX_BRK`, the break prefix byte (00_scope.md R9). -/
def pfxBrk : Byte := 0xF0

/-- `HAS_DIAG`: the diagnostic counter is present (00_scope.md R9). -/
def hasDiag : Bool := true

/-- `N` of the source's table (00_scope.md R9, 20_memory.md R60). -/
def sourceRows : Nat := 102

/-- FREE VALUE. What the environment drives at an edge for which `State.inputs` lists no sample:
its behaviour "is a free input of each step" (00_scope.md R19). Applied to `State.env`, which says whose
environment it is, and to `State.freeEdges`, so that two environments have nothing in common. Log
entries 2 and 14. -/
opaque freeInputs (env edge : Nat) : Inputs

/-- A row no lookup can return: neither code present (20_memory.md R51). -/
def blankRow : Row := { label := [], ascii := none, sb := none, ext := none }

/-- DESIGN CHOICE, log entry 4: the parameters of `State.reset`. A ROM of `N` = 102 rows in which only
what 20_memory.md R60 quotes is filled in ("A" with 0x1C and 0x41, "R ALT" with extended 0x11, the
label "L SHFT" without codes, at row numbers the source does not give) and every other row is blank;
the least `LABEL_MAX` of 00_scope.md R9. No statement rests on it. -/
def sourceKnown : Config where
  rom :=
    [{ label := [0x41], ascii := some 0x41, sb := some 0x1C, ext := none }]
      ++ List.replicate 39 blankRow
      ++ [{ label := [0x52, 0x20, 0x41, 0x4C, 0x54], ascii := none, sb := none, ext := some 0x11 },
          { label := [0x4C, 0x20, 0x53, 0x48, 0x46, 0x54], ascii := none, sb := none, ext := none }]
      ++ List.replicate 60 blankRow
  labelMax := 6

end Config

end Sys2Proof
end

