-- ==== Sys2Proof/WellFormed.lean ====
section
/-! DEFINITION. The checks on what the model is given: an instruction (30_encoding.md R81) and the
ROM parameter (20_memory.md R51). -/

namespace Sys2Proof

/-- A CODE instruction's byte is neither prefix byte (30_encoding.md R81); every other instruction
is well-formed as it stands. -/
def Instr.wf : Instr → Bool
  | .prefixE0 => true
  | .prefixF0 => true
  | .code b => b != Config.pfxExt && b != Config.pfxBrk
  | .rst => true
  | .clr => true
  | .ack => true
  | .idle => true

/-- Conditions 1 and 2 of 20_memory.md R51 for one column: the codes the rows define are pairwise
distinct. -/
def Rom.codesDistinct (col : Row → Option Byte) (rom : Rom) : Bool :=
  decide (rom.filterMap col).Nodup

/-- Condition 3 of 20_memory.md R51: every label has at most `LABEL_MAX` characters. -/
def Rom.labelsFit (labelMax : Nat) (rom : Rom) : Bool :=
  rom.all fun r => decide (r.label.length ≤ labelMax)

/-- ROM well-formedness (20_memory.md R51). "A model refuses a ROM that is not well-formed." -/
def Config.wf (c : Config) : Bool :=
  c.rom.codesDistinct Row.sb && c.rom.codesDistinct Row.ext && c.rom.labelsFit c.labelMax

/-- The range 00_scope.md R9 gives `LABEL_MAX` (at least 6). The step does not refuse a smaller one
(log entry 12). -/
def Config.labelMaxInRange (c : Config) : Bool :=
  decide (6 ≤ c.labelMax)

end Sys2Proof
end

