-- ==== Sys2Proof/Decode.lean ====
section
/-! DEFINITION. Decoding one edge: from the sampled input ports and `ev_valid` to the instruction
(30_encoding.md R81, R89; 42_control.md R184, R185), the one-byte format B8 on a list of bytes
(R80), and the encoder. -/

namespace Sys2Proof

/-- `class(b)` (30_encoding.md R81). -/
def classOf (b : Byte) : ByteClass :=
  if b = Config.pfxExt then .prefixE0 else if b = Config.pfxBrk then .prefixF0 else .code

/-- The byte instruction of an accepted byte (30_encoding.md R81, R83). No byte is illegal (R87). -/
def decodeByte (b : Byte) : Instr :=
  match classOf b with
  | .prefixE0 => .prefixE0
  | .prefixF0 => .prefixF0
  | .code => .code b

/-- The instruction of one clock edge (30_encoding.md R89), in the priority order of 42_control.md
R184. Where `ev_valid = 0`, `ev_ack = 1` and no byte is offered, R89 and R180 call the edge an ACK
and R181 and R184 an IDLE; the effect is the same, nothing (log entry 6, DEDUCED: ACK). -/
def decode (evValid : Bool) (x : Inputs) : Instr :=
  if x.rst then .rst
  else if x.clr then .clr
  else if x.inValid && !evValid then decodeByte x.inByte
  else if x.evAck then .ack
  else .idle

/-- Why a list of bytes is no instruction of format B8 (30_encoding.md R80). -/
inductive Reject where
  /-- there is no byte to decode -/
  | noByte
  /-- bytes are left over: "There is no other length" than one byte (R80) -/
  | longerThanOneByte
  deriving DecidableEq, Repr

/-- Decode the first byte of a list and give back the rest (30_encoding.md R80). -/
def decodeBytes : List Byte → Except Reject (Instr × List Byte)
  | [] => .error .noByte
  | b :: rest => .ok (decodeByte b, rest)

/-- Decode a word that must be exactly one instruction. -/
def decodeWord (bytes : List Byte) : Except Reject Instr :=
  match decodeBytes bytes with
  | .error e => .error e
  | .ok (i, []) => .ok i
  | .ok (_, _ :: _) => .error .longerThanOneByte

/-- The bytes of an instruction of `nbits` bits `w`, the first byte holding bits 7..0; at least one
byte, the bits above `nbits` being 0. -/
def wordBytes (nbits w : Nat) : List Byte :=
  (List.range (max 1 ((nbits + 7) / 8))).map fun k => BitVec.ofNat 8 (w >>> (8 * k))

/-- The instruction the decoder reads from an instruction word of the opcode table. -/
def decodeTableWord (nbits w : Nat) : Option Instr :=
  match decodeWord (wordBytes nbits w) with
  | .ok i => some i
  | .error _ => none

/-- A sample with every level low. -/
def quietInputs : Inputs :=
  { rst := false, clr := false, inValid := false, inByte := 0, evAck := false, lblPos := 0 }

/-- A sample that offers a byte and does nothing else. -/
def offerByte (b : Byte) : Inputs := { quietInputs with inValid := true, inByte := b }

/-- The byte of a byte instruction (30_encoding.md R82), none for a control action (R89). -/
def encodeByte : Instr → Option Byte
  | .prefixE0 => some Config.pfxExt
  | .prefixF0 => some Config.pfxBrk
  | .code b => some b
  | .rst => none
  | .clr => none
  | .ack => none
  | .idle => none

/-- The sample that asks for an instruction: the levels 30_encoding.md R89 names for it, every other
level low. -/
def encode : Instr → Inputs
  | .prefixE0 => offerByte Config.pfxExt
  | .prefixF0 => offerByte Config.pfxBrk
  | .code b => offerByte b
  | .rst => { quietInputs with rst := true }
  | .clr => { quietInputs with clr := true }
  | .ack => { quietInputs with evAck := true }
  | .idle => quietInputs

/-- One row of the exact cover: `b` is of `cls` when `b AND mask = pattern` (30_encoding.md R82). -/
structure CoverRow where
  cls : ByteClass
  mask : Byte
  pattern : Byte
  deriving DecidableEq, Repr

/-- Does the row match the byte? -/
def CoverRow.covers (r : CoverRow) (b : Byte) : Bool := b &&& r.mask == r.pattern

/-- The table of 30_encoding.md R82. -/
def coverTable : List CoverRow :=
  [ ⟨.prefixE0, 0xFF, 0xE0⟩,
    ⟨.prefixF0, 0xFF, 0xF0⟩,
    ⟨.code, 0x80, 0x00⟩,
    ⟨.code, 0xC0, 0x80⟩,
    ⟨.code, 0xE0, 0xC0⟩,
    ⟨.code, 0xFF, 0xE1⟩,
    ⟨.code, 0xFE, 0xE2⟩,
    ⟨.code, 0xFC, 0xE4⟩,
    ⟨.code, 0xF8, 0xE8⟩,
    ⟨.code, 0xFF, 0xF1⟩,
    ⟨.code, 0xFE, 0xF2⟩,
    ⟨.code, 0xFC, 0xF4⟩,
    ⟨.code, 0xF8, 0xF8⟩ ]

/-- The pseudo-sequence `MAKE k` (30_encoding.md R90). -/
def makeSeq (k : Byte) : List Byte := [k]

/-- The pseudo-sequence `BREAK k` (30_encoding.md R90). -/
def breakSeq (k : Byte) : List Byte := [Config.pfxBrk, k]

/-- The pseudo-sequence `EMAKE x` (30_encoding.md R90). -/
def emakeSeq (x : Byte) : List Byte := [Config.pfxExt, x]

/-- The pseudo-sequence `EBREAK x` (30_encoding.md R90). -/
def ebreakSeq (x : Byte) : List Byte := [Config.pfxExt, Config.pfxBrk, x]

end Sys2Proof
end

