-- ==== Sys2Proof/Machine/State.lean ====
section
/-! DEFINITION. The architectural state (10_state.md R20), the reset state (42_control.md R183,
70_reset_and_hazards.md R230) and the reasons a step can stop. -/

namespace Sys2Proof.Machine

/-- The four values of `st` (10_state.md R23, R24); their 2-bit codes are `stCode`. -/
inductive DecoderState where
  /-- initial, no partial sequence -/
  | init
  /-- saw the extended-prefix byte 0xE0 -/
  | longCode
  /-- saw the break-prefix byte 0xF0 -/
  | breakCode
  /-- saw 0xE0 and then a further prefix byte -/
  | longBreakCode
  deriving DecidableEq, Repr

/-- The six kinds of `ev_kind` (10_state.md R27); their 3-bit codes are `kindCode`. The reserved
codes 6 and 7 are never written and left out (30_encoding.md R87). -/
inductive EventKind where
  | asciiMake
  | binaryMake
  | longBinaryMake
  | break
  | longBreak
  | invalid
  deriving DecidableEq, Repr

/-- Faults: none. "The block has no exceptions and no traps" (60_exceptions.md R200), so no
instruction raises a fault, and the type has no constructor. -/
inductive Fault where
  deriving DecidableEq, Repr

/-- Why the model gives a step no meaning. -/
inductive Refusal where
  /-- An instruction without a meaning, by mnemonic. No arm of `exec` raises it. Safe. -/
  | notModelled (mnemonic : String)
  /-- Raised by `step`, before anything is sampled, when the ROM parameter is not well-formed
  (20_memory.md R51, 60_exceptions.md R200). Safe: such a ROM gets no claims. -/
  | malformedRom
  deriving DecidableEq, Repr

/-- The state of one decoder instance. The first seven fields are the architectural state of
10_state.md R20, "exactly the following". The last four are the model's own (log entries 1 to 3 and
14). -/
structure State where
  /-- decoder state, R23 -/
  st : DecoderState
  /-- an event is pending, R26 -/
  evValid : Bool
  /-- `KeyEvent.kind`, R27 -/
  evKind : EventKind
  /-- `KeyEvent.raw_code`, R28 -/
  evRaw : Byte
  /-- `KeyEvent.ascii` is present, R29 -/
  evAsciiV : Bool
  /-- `KeyEvent.ascii` value, R29 -/
  evAscii : Byte
  /-- diagnostic counter, R33 -/
  dc : DiagWord
  /-- the OPEN parameters (00_scope.md R9), constant: no step writes them (R32, R43) -/
  cfg : Config
  /-- the environment's samples still to come, the next edge's first (R40, R43) -/
  inputs : List Inputs
  /-- whose environment drives the ports once `inputs` runs out; the block does not see it -/
  env : Nat
  /-- how many free samples were drawn after `inputs` ran out -/
  freeEdges : Nat
  deriving DecidableEq, Repr

/-- The state right after reset (70_reset_and_hazards.md R230), with the parameters of log entry 4 and
no sample of the environment listed. -/
def State.reset : State where
  st := .init
  evValid := false
  evKind := .asciiMake
  evRaw := 0x00
  evAsciiV := false
  evAscii := 0x00
  dc := 0
  cfg := Config.sourceKnown
  inputs := []
  env := 0
  freeEdges := 0

end Sys2Proof.Machine
end

