-- ==== Sys2Proof/Machine/Flags.lean ====
section
/-! DEFINITION. The block's only flags, `ev_valid` and `ev_ascii_v` (10_state.md R34), the ascii filler
(R29), and the diagnostic counter's increment (41_translation.md R156). -/

namespace Sys2Proof.Machine

/-- `ev_ascii_v` for an optional ascii value (10_state.md R29). -/
def asciiFlag (a : Option Byte) : Bool := a.isSome

/-- `ev_ascii` for an optional ascii value: the filler 0x00 for none (10_state.md R29). -/
def asciiField (a : Option Byte) : Byte := a.getD 0x00

/-- The kinds the diagnostic counter counts (41_translation.md R156). -/
def countsInDc : EventKind → Bool
  | .asciiMake => false
  | .binaryMake => false
  | .longBinaryMake => false
  | .break => true
  | .longBreak => true
  | .invalid => true

/-- `dc` after an `Emit` of the kind: plus one modulo 2^DIAG_W where it counts (41_translation.md
R156). -/
def nextDc (k : EventKind) (dc : DiagWord) : DiagWord :=
  if Config.hasDiag && countsInDc k then dc + 1 else dc

/-- `in_ready` (10_state.md R41). -/
def inReady (s : State) (x : Inputs) : Bool := !s.evValid && !x.clr && !x.rst

/-- `accept`: the byte on `in_byte` is taken at this edge (40_decode_fsm.md R100). -/
def accepts (s : State) (x : Inputs) : Bool := x.inValid && inReady s x

end Sys2Proof.Machine
end

