-- ==== Sys2Proof/Machine/Rom.lean ====
section
/-! DEFINITION. The read primitives of the scan-code ROM (00_scope.md R13, 20_memory.md R52-R58) and
the index widths (00_scope.md R9). An index is a `Nat` in `0..N`, `N` being the miss value (R53). -/

namespace Sys2Proof.Machine

/-- `RomRow(i)` for `i < N` (20_memory.md R52); `none` outside, which no caller reaches. -/
def romRow (rom : Rom) (i : Nat) : Option Row := rom[i]?

/-- The least index whose `col` is `some b`, else `N` (20_memory.md R54, R55). -/
def lookupCol (col : Row → Option Byte) (rom : Rom) (b : Byte) : Nat :=
  rom.findIdx fun r => col r == some b

/-- `LookupSB(b)` (20_memory.md R54). -/
def lookupSB (rom : Rom) (b : Byte) : Nat := lookupCol Row.sb rom b

/-- `LookupEXT(b)` (20_memory.md R55). -/
def lookupEXT (rom : Rom) (b : Byte) : Nat := lookupCol Row.ext rom b

/-- The ascii value a row index carries: that of its row, none on a miss (20_memory.md R56, R57). -/
def asciiOf (rom : Rom) (i : Nat) : Option Byte := (romRow rom i).bind Row.ascii

/-- `IsAsciiRow(i)`, the presence policy (20_memory.md R56). -/
def isAsciiRow (rom : Rom) (i : Nat) : Bool := (asciiOf rom i).isSome

/-- The label of a row index, empty on a miss (20_memory.md R58). -/
def labelAt (rom : Rom) (i : Nat) : List Byte :=
  match romRow rom i with
  | some r => r.label
  | none => []

/-- `LabelLen(i)` (20_memory.md R58). -/
def labelLen (rom : Rom) (i : Nat) : Nat := (labelAt rom i).length

/-- `LabelChar(i, p)`: 0x00 outside the label (20_memory.md R58). -/
def labelChar (rom : Rom) (i p : Nat) : Byte := (labelAt rom i).getD p 0x00

/-- The least `w` with `n < 2^w`. -/
def leastWidth (n : Nat) : Nat := if n = 0 then 0 else Nat.log2 n + 1

/-- `IDX_W` (00_scope.md R9, 20_memory.md R53). -/
def idxW (rom : Rom) : Nat := leastWidth rom.length

/-- `LEN_W` (00_scope.md R9). -/
def lenW (labelMax : Nat) : Nat := leastWidth labelMax

end Sys2Proof.Machine
end

