-- ==== Sys2Proof/Machine/Operands.lean ====
section
/-! DEFINITION. Operand assembly and field encodings: the codes of `st` and `ev_kind` (30_encoding.md
R85, R86), the classification of a byte in INIT (40_decode_fsm.md R107), the translation row
(41_translation.md R150) and the packed event register (10_state.md R31). -/

namespace Sys2Proof.Machine

/-- The 2-bit code of `st` (30_encoding.md R85). -/
def stCode : DecoderState → BitVec 2
  | .init => 0b00
  | .longCode => 0b01
  | .breakCode => 0b10
  | .longBreakCode => 0b11

/-- The state of a 2-bit code; every code is legal (30_encoding.md R85). -/
def stOfCode (c : BitVec 2) : DecoderState :=
  if c = 0b00 then .init else if c = 0b01 then .longCode else if c = 0b10 then .breakCode
  else .longBreakCode

/-- The 3-bit code of `ev_kind` (30_encoding.md R86). -/
def kindCode : EventKind → BitVec 3
  | .asciiMake => 0
  | .binaryMake => 1
  | .longBinaryMake => 2
  | .break => 3
  | .longBreak => 4
  | .invalid => 5

/-- The kind of a 3-bit code; 6 and 7 are reserved (30_encoding.md R86, R87). -/
def kindOfCode (c : BitVec 3) : Option EventKind :=
  if c = 0 then some .asciiMake else if c = 1 then some .binaryMake
  else if c = 2 then some .longBinaryMake else if c = 3 then some .break
  else if c = 4 then some .longBreak else if c = 5 then some .invalid else none

/-- Kind and ascii of a CODE byte accepted in INIT (40_decode_fsm.md R105, R107). The raw code is the
byte itself (30_encoding.md R83). -/
def classifyInit (rom : Rom) (b : Byte) : EventKind × Option Byte :=
  let i := lookupSB rom b
  if isAsciiRow rom i then (.asciiMake, asciiOf rom i) else (.binaryMake, none)

/-- Kind and ascii of a CODE byte accepted in each state (40_decode_fsm.md R105). Only INIT reads the
ROM. -/
def classifyIn (st : DecoderState) (rom : Rom) (b : Byte) : EventKind × Option Byte :=
  match st with
  | .init => classifyInit rom b
  | .longCode => (.longBinaryMake, none)
  | .breakCode => (.break, none)
  | .longBreakCode => (.longBreak, none)

/-- `TranslateRow(kind, raw)` (41_translation.md R150). -/
def translateRow (rom : Rom) (k : EventKind) (raw : Byte) : Nat :=
  match k with
  | .asciiMake => lookupSB rom raw
  | .binaryMake => lookupSB rom raw
  | .longBinaryMake => lookupEXT rom raw
  | .break => rom.length
  | .longBreak => rom.length
  | .invalid => rom.length

/-- `TranslateRow` on a 3-bit kind code, the reserved codes having no label (41_translation.md
R150). -/
def translateRowOfCode (rom : Rom) (c : BitVec 3) (raw : Byte) : Nat :=
  match kindOfCode c with
  | some k => translateRow rom k raw
  | none => rom.length

/-- The key-event output register as one word: `ev_valid`, `ev_kind`, `ev_raw`, `ev_ascii_v`,
`ev_ascii` from bit 20 down (10_state.md R31). -/
def evr (s : State) : BitVec 21 :=
  BitVec.ofBool s.evValid ++ kindCode s.evKind ++ s.evRaw ++ BitVec.ofBool s.evAsciiV ++ s.evAscii

end Sys2Proof.Machine
end

