-- ==== Sys2Proof/Machine/Ops.lean ====
section
/-! DEFINITION. The named operations the meanings are made of. The block has no memory to write, takes
no exception and returns from none (60_exceptions.md R200, R205, R206), so there is no such operation
here; what reports an anomaly is `emit` (R201). -/

namespace Sys2Proof.Machine

/-- `st <- q` (00_scope.md R12). -/
def setSt (q : DecoderState) (s : State) : State := { s with st := q }

/-- `Emit(k, r, a)` (40_decode_fsm.md R101): the key-event output register and the counter, in one
step. -/
def emit (k : EventKind) (r : Byte) (a : Option Byte) (s : State) : State :=
  { s with
    evValid := true
    evKind := k
    evRaw := r
    evAsciiV := asciiFlag a
    evAscii := asciiField a
    dc := nextDc k s.dc }

/-- `ev_valid <- 0`, the other event fields kept (10_state.md R30). -/
def dropEvent (s : State) : State := { s with evValid := false }

/-- The registers of the reset state (42_control.md R183); the parameters and the environment are not
registers and stay. -/
def resetRegisters (s : State) : State :=
  { s with
    st := .init
    evValid := false
    evKind := .asciiMake
    evRaw := 0x00
    evAsciiV := false
    evAscii := 0x00
    dc := 0 }

/-- The effect of a byte, under the gate of 40_decode_fsm.md R100: while an event is pending the byte
waits and nothing changes (10_state.md R41, 42_control.md R181; log entry 7). -/
def takeByte (effect : State → State) (s : State) : State :=
  if s.evValid then s else effect s

/-- The next value of `st` on 0xE0 (40_decode_fsm.md R103). -/
def afterE0 : DecoderState → DecoderState
  | .init => .longCode
  | .longCode => .longBreakCode
  | .breakCode => .breakCode
  | .longBreakCode => .longBreakCode

/-- The next value of `st` on 0xF0 (40_decode_fsm.md R104). -/
def afterF0 : DecoderState → DecoderState
  | .init => .breakCode
  | .longCode => .longBreakCode
  | .breakCode => .breakCode
  | .longBreakCode => .longBreakCode

/-- A terminal byte: the event its state and the ROM give, and back to INIT (40_decode_fsm.md R105). -/
def terminal (b : Byte) (s : State) : State :=
  let e := classifyIn s.st s.cfg.rom b
  setSt .init (emit e.1 b e.2 s)

/-- The input ports sampled at the next edge: the first listed sample, or a free one (00_scope.md
R19). Free samples are drawn from the stream of the state's own environment, `State.env`, so that states
with different environments share none of them (DESIGN CHOICE, log entries 1, 2 and 14). -/
def sampled (s : State) : Inputs :=
  match s.inputs with
  | x :: _ => x
  | [] => Config.freeInputs s.env s.freeEdges

/-- The state with that sample used up; no register changes. -/
def pastSample (s : State) : State :=
  match s.inputs with
  | _ :: rest => { s with inputs := rest }
  | [] => { s with freeEdges := s.freeEdges + 1 }

/-- The state whose next edge samples `x`, every other sample one edge later. -/
def offerNext (x : Inputs) (s : State) : State := { s with inputs := x :: s.inputs }

end Sys2Proof.Machine
end

