-- ==== Sys2Proof/Machine/Bytes.lean ====
section
/-! DEFINITION. The byte instructions (40_decode_fsm.md, section 2). -/

namespace Sys2Proof.Machine

/-- PREFIX_E0 (40_decode_fsm.md R103): no event, nothing stored of the byte. -/
def execPrefixE0 (s : State) : Host.Outcome State Fault Refusal :=
  .next (takeByte (fun s => setSt (afterE0 s.st) s) s)

/-- PREFIX_F0 (40_decode_fsm.md R104): no event, nothing stored of the byte. -/
def execPrefixF0 (s : State) : Host.Outcome State Fault Refusal :=
  .next (takeByte (fun s => setSt (afterF0 s.st) s) s)

/-- CODE (40_decode_fsm.md R105, R107): the terminal byte `b` completes a sequence. -/
def execCode (b : Byte) (s : State) : Host.Outcome State Fault Refusal :=
  .next (takeByte (terminal b) s)

end Sys2Proof.Machine
end

