-- ==== Sys2Proof/Machine/Control.lean ====
section
/-! DEFINITION. The control actions (42_control.md). -/

namespace Sys2Proof.Machine

/-- RST (42_control.md R183). -/
def execRst (s : State) : Host.Outcome State Fault Refusal :=
  .next (resetRegisters s)

/-- CLR (42_control.md R182): partial sequence and pending event are discarded, the event fields and
`dc` kept. -/
def execClr (s : State) : Host.Outcome State Fault Refusal :=
  .next (dropEvent (setSt .init s))

/-- ACK (42_control.md R180): no effect where nothing is pending. -/
def execAck (s : State) : Host.Outcome State Fault Refusal :=
  .next (if s.evValid then dropEvent s else s)

/-- IDLE (42_control.md R181): no register changes. -/
def execIdle (s : State) : Host.Outcome State Fault Refusal :=
  .next s

end Sys2Proof.Machine
end

