-- ==== Sys2Proof/Machine/Dispatch.lean ====
section
/-! DEFINITION. One arm per instruction of opcode_table.json. -/

namespace Sys2Proof.Machine

def exec (i : Instr) (s : State) : Host.Outcome State Fault Refusal :=
  match i with
  | .prefixE0 => Sys2Proof.Machine.execPrefixE0 s
  | .prefixF0 => Sys2Proof.Machine.execPrefixF0 s
  | .code b => Sys2Proof.Machine.execCode b s
  | .rst => Sys2Proof.Machine.execRst s
  | .clr => Sys2Proof.Machine.execClr s
  | .ack => Sys2Proof.Machine.execAck s
  | .idle => Sys2Proof.Machine.execIdle s

end Sys2Proof.Machine
end

