-- ==== Sys2Proof/Machine/Step.lean ====
section
/-! DEFINITION. One step: one rising clock edge (00_scope.md R12, R19; 42_control.md R184). -/

namespace Sys2Proof.Machine

/-- One clock edge: sample the ports, decode, execute. A ROM that is not well-formed is refused
before any step runs (20_memory.md R51, 60_exceptions.md R200). -/
def step (s : State) : Host.Outcome State Fault Refusal :=
  if s.cfg.wf then exec (decode s.evValid (sampled s)) (pastSample s) else .refused .malformedRom

/-- The byte `w` offered at the next edge, with no event pending, so that the edge accepts it
(40_decode_fsm.md R100; log entry 13). -/
def State.withFetchWord (s : State) (_nbits w : Nat) : State :=
  offerNext (offerByte (BitVec.ofNat 8 w)) (dropEvent s)

end Sys2Proof.Machine
end

