-- ==== Sys2Proof/Machine/Instances.lean ====
section
/-! DEFINITION. Several decoder instances, one per keyboard connection (00_scope.md R9, 10_state.md R44,
20_memory.md R72, 60_exceptions.md R210): each has its own state and its own environment, they share the
ROM. The list and the stepping of one instance at a time are the model's (DESIGN CHOICE, log entry
14). -/

namespace Sys2Proof.Machine

/-- All instances have the same parameters: they share one ROM (10_state.md R32). -/
def shareRom (cfg : Config) (xs : List State) : Prop := ∀ s ∈ xs, s.cfg = cfg

/-- Every instance has an environment of its own: no two draw their free samples from one stream
(10_state.md R44, 60_exceptions.md R210; log entry 14). The number names the environment, and no
instruction reads or writes it: instances "have no identifiers visible to the block" (R210). -/
def ownEnvironments (xs : List State) : Prop := xs.Pairwise fun s t => s.env ≠ t.env

/-- `n` instances right after each was reset by its own `rst` (60_exceptions.md R210), over one ROM,
each with its own environment. -/
def instancesAtReset (cfg : Config) (n : Nat) : List State :=
  (List.range n).map fun k => { State.reset with cfg := cfg, env := k }

/-- Instance `k` takes one step of its own; no other instance is touched (20_memory.md R72). A list
without an instance `k` stays as it is. -/
def stepInstance (k : Nat) (xs : List State) : Host.Outcome (List State) Fault Refusal :=
  match xs[k]? with
  | none => .next xs
  | some s =>
    match step s with
    | .next t => .next (xs.set k t)
    | .fault r => .fault r
    | .refused r => .refused r

end Sys2Proof.Machine
end

