-- ==== Sys2Proof/Machine/Ports.lean ====
section
/-! DEFINITION. The output ports (10_state.md R40-R42): functions of the registers, the ROM, `lbl_pos`
and, for `in_ready` alone, `clr` and `rst`. -/

namespace Sys2Proof.Machine

/-- `lbl_row` (41_translation.md R150). -/
def lblRow (s : State) : Nat := translateRow s.cfg.rom s.evKind s.evRaw

/-- `lbl_len` (41_translation.md R151). -/
def lblLen (s : State) : Nat := labelLen s.cfg.rom (lblRow s)

/-- `lbl_char` at position `p` (41_translation.md R152). -/
def lblChar (s : State) (p : Nat) : Byte := labelChar s.cfg.rom (lblRow s) p

/-- The port `lbl_pos`: `LEN_W` bits (10_state.md R40; 90_conflicts.md C9 item 3), the low ones of the
sample's number (log entry 9). -/
def lblPosPort (s : State) (x : Inputs) : BitVec (lenW s.cfg.labelMax) := BitVec.ofNat _ x.lblPos

/-- The characters a consumer reads at positions 0 to `lbl_len - 1` (41_translation.md R155,
42_control.md R187). -/
def readLabel (s : State) : List Byte := (List.range (lblLen s)).map (lblChar s)

/-- The output ports in one record (10_state.md R40). `lblRow` and `lblLen` are the numbers on the
`IDX_W`- and `LEN_W`-bit ports. -/
structure Outputs where
  inReady : Bool
  evValid : Bool
  evKind : BitVec 3
  evRaw : Byte
  evAsciiV : Bool
  evAscii : Byte
  lblRow : Nat
  lblLen : Nat
  lblChar : Byte
  diagCount : DiagWord
  dbgState : BitVec 2
  deriving DecidableEq, Repr

/-- The output ports during the cycle that ends at the edge sampling `x` (10_state.md R42). -/
def outputs (s : State) (x : Inputs) : Outputs where
  inReady := inReady s x
  evValid := s.evValid
  evKind := kindCode s.evKind
  evRaw := s.evRaw
  evAsciiV := s.evAsciiV
  evAscii := s.evAscii
  lblRow := lblRow s
  lblLen := lblLen s
  lblChar := lblChar s (lblPosPort s x).toNat
  diagCount := s.dc
  dbgState := stCode s.st

/-- A key event as its consumer takes it (00_scope.md R17, 10_state.md R26-R29). -/
structure KeyEvent where
  kind : EventKind
  raw : Byte
  ascii : Option Byte
  deriving DecidableEq, Repr

/-- The pending event, if there is one: the retained fields are none while `ev_valid = 0` (10_state.md
R29, R30). -/
def pendingEvent (s : State) : Option KeyEvent :=
  if s.evValid then some ⟨s.evKind, s.evRaw, if s.evAsciiV then some s.evAscii else none⟩ else none

end Sys2Proof.Machine
end

