-- ==== Sys2Proof/Machine/WideState.lean ====
section
/-! DEFINITION. The defensive default arm (40_decode_fsm.md R106): what a realisation whose `st` has
codes outside the four must do on them. With the 2-bit `st` of this model no step reaches it (log
entry 10); `none` stands for such a code. -/

namespace Sys2Proof.Machine

/-- A byte accepted in a code outside the four states: `Emit(Invalid, b, none)` and `st <- INIT`
(40_decode_fsm.md R106). -/
def defaultArm (b : Byte) (s : State) : State := setSt .init (emit .invalid b none s)

/-- The effect of an accepted byte of any class in a legal state (40_decode_fsm.md R103, R104,
R105). -/
def legalArm (b : Byte) (s : State) : State :=
  match classOf b with
  | .prefixE0 => setSt (afterE0 s.st) s
  | .prefixF0 => setSt (afterF0 s.st) s
  | .code => terminal b s

/-- A byte offered while `st` holds `code`, `none` being a code outside the four. -/
def wideByte (code : Option DecoderState) (b : Byte) (s : State) : State :=
  match code with
  | some q => takeByte (legalArm b) (setSt q s)
  | none => takeByte (defaultArm b) s

end Sys2Proof.Machine
end

