-- ==== Sys2Proof/Safety.lean ====
section
/-! DEFINITION. The terms claims are stated in: what a ROM must satisfy, what every reachable event
register satisfies, the event a byte sequence stands for, the events a run produces, and the
environments of the spec's rules. -/

namespace Sys2Proof.Machine

/-- 20_memory.md R51 in its own words: the codes of each column are pairwise distinct over the rows
that define them, and every label fits. -/
structure RomOk (c : Config) : Prop where
  sbDistinct : ∀ (i j : Nat) (b : Byte) (ri rj : Row), c.rom[i]? = some ri → c.rom[j]? = some rj →
    ri.sb = some b → rj.sb = some b → i = j
  extDistinct : ∀ (i j : Nat) (b : Byte) (ri rj : Row), c.rom[i]? = some ri → c.rom[j]? = some rj →
    ri.ext = some b → rj.ext = some b → i = j
  labelsFit : ∀ (i : Nat) (r : Row), c.rom[i]? = some r → r.label.length ≤ c.labelMax

/-- What 20_memory.md R60 requires of a ROM that claims to be the source's table. -/
structure RomIsSourceLike (rom : Rom) : Prop where
  rowA : ∃ r ∈ rom, r.label = [0x41] ∧ r.sb = some 0x1C ∧ r.ascii = some 0x41
  rowRAlt : ∃ r ∈ rom, r.label = [0x52, 0x20, 0x41, 0x4C, 0x54] ∧ r.ext = some 0x11
  rowLShft : ∃ r ∈ rom, r.label = [0x4C, 0x20, 0x53, 0x48, 0x46, 0x54]
  rows : rom.length = Config.sourceRows
  enter : isAsciiRow rom 68 = true

/-- The literal index-range test of the source, on an index (20_memory.md R56, R61). -/
def literalTest (i : Nat) : Bool := decide (i < 40) || decide (i = 68) || decide (79 < i)

/-- The faithfulness premise of 20_memory.md R61. -/
def romMatchesLiteralTest (rom : Rom) : Prop :=
  ∀ (i : Nat) (r : Row), rom[i]? = some r → (r.ascii ≠ none ↔ (i < 40 ∨ i = 68 ∨ 79 < i))

/-- What holds of the event register and of `st` in every state the block reaches (10_state.md R25,
R27-R29, R35; 40_decode_fsm.md R106, R107). -/
structure EventConsistent (s : State) : Prop where
  /-- "Prefix bytes are never stored in it." -/
  rawNotPrefix : s.evRaw ≠ Config.pfxExt ∧ s.evRaw ≠ Config.pfxBrk
  /-- no step writes kind Invalid -/
  notInvalid : s.evKind ≠ .invalid
  /-- the filler of an absent ascii value -/
  filler : s.evAsciiV = false → s.evAscii = 0x00
  /-- an ascii value comes with kind AsciiMake only -/
  asciiOnlyMake : s.evAsciiV = true → s.evKind = .asciiMake
  /-- a pending AsciiMake carries its ascii value -/
  makeHasAscii : s.evValid = true → s.evKind = .asciiMake → s.evAsciiV = true
  /-- a pending event means that no sequence is partial -/
  pendingInit : s.evValid = true → s.st = .init
  /-- a held ascii value is that of the row of the held code -/
  asciiFromRom : s.evAsciiV = true →
    ∃ r ∈ s.cfg.rom, r.sb = some s.evRaw ∧ r.ascii = some s.evAscii
  /-- a held BinaryMake is of a code with no ascii value in the ROM -/
  binaryNotAscii : s.evKind = .binaryMake →
    ∀ r ∈ s.cfg.rom, r.sb = some s.evRaw → r.ascii = none

/-- The seven architectural registers of two states agree (10_state.md R20). -/
structure SameRegisters (s t : State) : Prop where
  st : t.st = s.st
  evValid : t.evValid = s.evValid
  evKind : t.evKind = s.evKind
  evRaw : t.evRaw = s.evRaw
  evAsciiV : t.evAsciiV = s.evAsciiV
  evAscii : t.evAscii = s.evAscii
  dc : t.dc = s.dc

/-- Is the byte one of the two prefix bytes (00_scope.md R18)? -/
def isPrefixByte (b : Byte) : Bool := b == Config.pfxExt || b == Config.pfxBrk

/-- The event of a sequence: prefix bytes, then the CODE byte `c` (30_encoding.md R84). -/
def sequenceEvent (rom : Rom) (ps : List Byte) (c : Byte) : KeyEvent :=
  match ps with
  | [] =>
    if isAsciiRow rom (lookupSB rom c)
    then ⟨.asciiMake, c, asciiOf rom (lookupSB rom c)⟩
    else ⟨.binaryMake, c, none⟩
  | [p] => if p = Config.pfxExt then ⟨.longBinaryMake, c, none⟩ else ⟨.break, c, none⟩
  | p :: _ :: _ => if p = Config.pfxExt then ⟨.longBreak, c, none⟩ else ⟨.break, c, none⟩

/-- The samples that offer the bytes one edge after the other. -/
def offers (bs : List Byte) : List Inputs := bs.map offerByte

/-- An eager consumer's samples for one sequence: its bytes, then one acknowledge (42_control.md
R187). -/
def eagerSamples (ps : List Byte) (c : Byte) : List Inputs :=
  offers (ps ++ [c]) ++ [{ quietInputs with evAck := true }]

/-- `n` steps, stopping at the first refusal: `Host.Core.run` of this machine
(`core_run_eq_runSteps`). -/
def runSteps : Nat → State → Host.Outcome State Fault Refusal
  | 0, s => .next s
  | n + 1, s =>
    match step s with
    | .next t => runSteps n t
    | .fault r => .fault r
    | .refused r => .refused r

/-- The events produced by the next `n` steps, in order: one for every step that sets `ev_valid`
(20_memory.md R67). -/
def eventsDuring : Nat → State → List KeyEvent
  | 0, _ => []
  | n + 1, s =>
    match step s with
    | .next t => (if s.evValid then [] else (pendingEvent t).toList) ++ eventsDuring n t
    | .fault _ => []
    | .refused _ => []

/-- How many of the events count in the diagnostic counter (41_translation.md R156). -/
def countedEvents (es : List KeyEvent) : Nat := es.countP fun e => countsInDc e.kind

/-- An environment that neither acknowledges nor clears nor resets (93_implementation_defined.md
U15). -/
def neverTakes (xs : List Inputs) : Prop := ∀ x ∈ xs, x.rst = false ∧ x.clr = false ∧ x.evAck = false

/-- The producer's hold (70_reset_and_hazards.md R242): a byte offered by `x` and not accepted at
that edge is offered again by the sample after it. -/
def holdsByte (s : State) (x y : Inputs) : Prop :=
  x.inValid = true → accepts s x = false → y.inValid = true ∧ y.inByte = x.inByte

end Sys2Proof.Machine
end

