-- ==== Sys2Proof/Certificates/Slice0/Obligations.lean ====
section
/-! DEFINITION. The statements for the provers. Every one holds for every ROM parameter, every
environment and every value of the free inputs; none rests on `Config.sourceKnown`. Where a rule's text
marks itself a decision D<n>, the decision is the spec's, of 92_eei_decisions.md. -/

open Sys2Proof Sys2Proof.Machine

/-! ### Decoding and encoding -/

/-- A byte of each of the thirteen rows of the cover of 30_encoding.md R82, and control levels of R89,
written out from the spec, decode to their instructions. -/
def Obligations.SpecWordsDecodeToTheirInstructions : Prop :=
  decodeByte 0b11100000 = .prefixE0 ∧ decodeByte 0b11110000 = .prefixF0 ∧
  decodeByte 0b00011100 = .code 0x1C ∧ decodeByte 0b10000000 = .code 0x80 ∧
  decodeByte 0b11000001 = .code 0xC1 ∧ decodeByte 0b11100001 = .code 0xE1 ∧
  decodeByte 0b11100011 = .code 0xE3 ∧ decodeByte 0b11100100 = .code 0xE4 ∧
  decodeByte 0b11101111 = .code 0xEF ∧ decodeByte 0b11110001 = .code 0xF1 ∧
  decodeByte 0b11110010 = .code 0xF2 ∧ decodeByte 0b11110111 = .code 0xF7 ∧
  decodeByte 0b11111111 = .code 0xFF ∧
  decode false ⟨false, false, true, 0xE0, false, 0⟩ = .prefixE0 ∧
  decode true ⟨true, true, true, 0xE0, true, 0⟩ = .rst ∧
  decode true ⟨false, true, true, 0xE0, true, 0⟩ = .clr ∧
  decode true ⟨false, false, true, 0xE0, true, 0⟩ = .ack ∧
  decode true ⟨false, false, true, 0xE0, false, 0⟩ = .idle

/-- 30_encoding.md R81, R82: the three classes cover all bytes and are disjoint, the table's rows say
the same as the class, and no two rows match one byte. R82 marks itself derived from R81. -/
def Obligations.CoverTableSaysTheByteClasses : Prop :=
  (∀ b : Byte, classOf b =
    if b = 0xE0 then .prefixE0 else if b = 0xF0 then .prefixF0 else .code) ∧
  (∀ (b : Byte) (c : ByteClass), classOf b = c ↔ ∃ r ∈ coverTable, r.cls = c ∧ r.covers b = true) ∧
  coverTable.Pairwise fun r q => ∀ b : Byte, ¬ (r.covers b = true ∧ q.covers b = true)

/-- Encoding then decoding gives the instruction back, for every well-formed instruction with every
operand: with no event pending for all of them, and with an event pending for the control actions.
Every sample decodes to a well-formed instruction, and that instruction's own sample decodes to it
again. The clause `decode false (encode ack) = ack` is the model's choice, log entry 6 (DEDUCED): with
nothing pending and no byte offered, R89 and R180 call the edge an ACK, R181 and R184 an IDLE. -/
def Obligations.DecodeAndEncodeAgree : Prop :=
  (∀ i : Instr, i.wf = true → decode false (encode i) = i ∧
    (encodeByte i = none → decode true (encode i) = i)) ∧
  (∀ (evValid : Bool) (x : Inputs), (decode evValid x).wf = true ∧
    decode evValid (encode (decode evValid x)) = decode evValid x) ∧
  (∀ i j : Instr, i.wf = true → j.wf = true → encode i = encode j → i = j)

/-- 30_encoding.md R89, 42_control.md R184, R185: which sample is which instruction. The choice
between ACK and IDLE where nothing is pending and no byte is offered is the model's (log entry 6), so
that case is left out. -/
def Obligations.SamplesAskForInstructionsInPriorityOrder : Prop :=
  ∀ (v : Bool) (x : Inputs),
    (x.rst = true → decode v x = .rst) ∧
    (x.rst = false → x.clr = true → decode v x = .clr) ∧
    (x.rst = false → x.clr = false → v = true → x.evAck = true → decode v x = .ack) ∧
    (x.rst = false → x.clr = false → v = true → x.evAck = false → decode v x = .idle) ∧
    (x.rst = false → x.clr = false → v = false → x.inValid = true →
      decode v x = decodeByte x.inByte) ∧
    (x.rst = false → x.clr = false → v = false → x.inValid = false → x.evAck = false →
      decode v x = .idle)

/-! ### Reset and the step -/

/-- 42_control.md R183: RST completes in every state and leaves exactly the reset values; the parameters
(the ROM is constant) and the environment stay. An edge that samples `rst = 1` is an RST whatever the
other inputs are, so no byte is accepted in it. -/
def Obligations.RstWritesTheResetState : Prop :=
  (∀ s : State, exec .rst s = .next
    { st := .init, evValid := false, evKind := .asciiMake, evRaw := 0x00, evAsciiV := false,
      evAscii := 0x00, dc := 0, cfg := s.cfg, inputs := s.inputs, env := s.env,
      freeEdges := s.freeEdges }) ∧
  (∀ (s : State) (x : Inputs) (rest : List Inputs), RomOk s.cfg → s.inputs = x :: rest →
    x.rst = true → accepts s x = false ∧ step s = exec .rst { s with inputs := rest })

/-- 70_reset_and_hazards.md R230: the registers of `State.reset`. Its `cfg`, `inputs`, `env` and
`freeEdges` are the model's choice (log entries 1, 2, 4 and 14); nothing is said about them. -/
def Obligations.StateResetHoldsTheResetValues : Prop :=
  State.reset.st = .init ∧ State.reset.evValid = false ∧ kindCode State.reset.evKind = 0 ∧
  State.reset.evRaw = 0x00 ∧ State.reset.evAsciiV = false ∧ State.reset.evAscii = 0x00 ∧
  State.reset.dc = 0 ∧ evr State.reset = 0x000000

/-- 70_reset_and_hazards.md R230: the registers and the outputs after RST, whatever the ROM: ready once
`rst` and `clr` are low, `lbl_row` the lookup of 0x00, the counter 0, the state code 0b00. -/
def Obligations.StateAndOutputsAfterReset : Prop :=
  ∀ (s t : State) (x : Inputs), exec .rst s = .next t →
    t.st = .init ∧ t.evValid = false ∧ kindCode t.evKind = 0 ∧ t.evRaw = 0x00 ∧
    t.evAsciiV = false ∧ t.evAscii = 0x00 ∧ t.dc = 0 ∧ t.cfg.rom = s.cfg.rom ∧
    (outputs t x).inReady = (!x.rst && !x.clr) ∧ (outputs t x).evValid = false ∧
    (outputs t x).lblRow = lookupSB s.cfg.rom 0x00 ∧ (outputs t x).diagCount = 0 ∧
    (outputs t x).dbgState = 0b00

/-- A step runs the decoded instruction. With a well-formed ROM, a step samples the next listed input
record (or the next free one), decodes it together with `ev_valid`, and is `exec` of that instruction
in the state in which only that sample is used up. That the samples stand listed in the state is the
model's choice (DESIGN CHOICE, log entry 1). The second clause is wholly the model's choice: that an edge
with no listed sample draws `Config.freeInputs` of the state's environment number and counter, and
advances the counter (DESIGN CHOICE, log entries 2 and 14); the spec says only that the inputs are free. -/
def Obligations.StepRunsTheDecodedInstruction : Prop :=
  (∀ (s : State) (x : Inputs) (rest : List Inputs), s.cfg.wf = true → s.inputs = x :: rest →
    step s = exec (decode s.evValid x) { s with inputs := rest }) ∧
  (∀ s : State, s.cfg.wf = true → s.inputs = [] →
    step s = exec (decode s.evValid (Config.freeInputs s.env s.freeEdges))
      { s with freeEdges := s.freeEdges + 1 }) ∧
  (∀ (s : State) (x : Inputs) (rest : List Inputs) (i : Instr), s.cfg.wf = true →
    s.inputs = x :: rest → decode s.evValid x = i → i.wf = true →
    step s = exec i { s with inputs := rest })

/-- 42_control.md R184, the complete step, in the priority order `rst`, `clr`, then acknowledge or
byte. `Decode(s, b)` is the instruction of the byte's class. -/
def Obligations.CompleteStepFollowsThePriorityOrder : Prop :=
  ∀ (s : State) (x : Inputs) (rest : List Inputs), RomOk s.cfg → s.inputs = x :: rest →
    step s =
      if x.rst = true then .next
        { s with
          st := .init, evValid := false, evKind := .asciiMake, evRaw := 0x00, evAsciiV := false,
          evAscii := 0x00, dc := 0, inputs := rest }
      else if x.clr = true then .next { s with st := .init, evValid := false, inputs := rest }
      else if s.evValid = true then
        if x.evAck = true then .next { s with evValid := false, inputs := rest }
        else .next { s with inputs := rest }
      else if x.inValid = true then
        (match classOf x.inByte with
        | .prefixE0 => exec .prefixE0 { s with inputs := rest }
        | .prefixF0 => exec .prefixF0 { s with inputs := rest }
        | .code => exec (.code x.inByte) { s with inputs := rest })
      else .next { s with inputs := rest }

/-- 60_exceptions.md R200: with a well-formed ROM no state and no input makes a step stop; and no
instruction ever stops. -/
def Obligations.StepsNeverStopOnAWellFormedRom : Prop :=
  (∀ s : State, RomOk s.cfg → ∃ t, step s = .next t) ∧ (∀ (i : Instr) (s : State), ∃ t, exec i s = .next t)

/-- 20_memory.md R51: a step refuses exactly the ROMs that break one of the three conditions. -/
def Obligations.MalformedRomsAreRefused : Prop :=
  ∀ s : State, step s = .refused .malformedRom ↔ ¬ RomOk s.cfg

/-- The parameters never change (10_state.md R32, R43), and one step uses up exactly one sample of the
environment (00_scope.md R12, R19; the sample list, the environment's number and the counter are the model's, log
entries 1, 2 and 14). -/
def Obligations.StepKeepsParametersAndUsesOneSample : Prop :=
  ∀ s t : State, step s = .next t →
    t.cfg = s.cfg ∧ t.inputs = s.inputs.tail ∧ t.env = s.env ∧
    t.freeEdges = s.freeEdges + (if s.inputs = [] then 1 else 0)

/-! ### The control actions -/

/-- 42_control.md R182 and 70_reset_and_hazards.md R232: CLR completes in every state, writes `st` and
`ev_valid`, and keeps every other register. An edge that samples `rst = 0` and `clr = 1` is a CLR
whatever the other inputs are: no byte is accepted and an acknowledge is ignored. -/
def Obligations.ClrDiscardsSequenceAndEvent : Prop :=
  (∀ s : State, exec .clr s = .next { s with st := .init, evValid := false }) ∧
  (∀ (s : State) (x : Inputs) (rest : List Inputs), RomOk s.cfg → s.inputs = x :: rest →
    x.rst = false → x.clr = true →
    accepts s x = false ∧ step s = exec .clr { s with inputs := rest })

/-- 42_control.md R180: ACK completes in every state; it clears a pending event and keeps every other
register, and without a pending event it has no effect. An edge with `ev_ack = 1` and neither `rst` nor
`clr` has that effect whenever no byte is accepted, and it accepts none while an event is pending. -/
def Obligations.AckConsumesThePendingEvent : Prop :=
  (∀ s : State, s.evValid = true → exec .ack s = .next { s with evValid := false }) ∧
  (∀ s : State, s.evValid = false → exec .ack s = .next s) ∧
  (∀ (s : State) (x : Inputs) (rest : List Inputs), RomOk s.cfg → s.inputs = x :: rest →
    x.rst = false → x.clr = false → x.evAck = true →
    (s.evValid = true → accepts s x = false) ∧
    (accepts s x = false → step s = exec .ack { s with inputs := rest }))

/-- 42_control.md R181: IDLE completes in every state and changes no register. An edge with neither
`rst` nor `clr`, that accepts no byte and has no acknowledge to take, changes none either; a byte
offered while an event is pending is such an edge. -/
def Obligations.IdleChangesNothing : Prop :=
  (∀ s : State, exec .idle s = .next s) ∧
  (∀ (s : State) (x : Inputs) (rest : List Inputs), RomOk s.cfg → s.inputs = x :: rest →
    x.rst = false → x.clr = false → (x.inValid = false ∨ s.evValid = true) →
    (x.evAck = false ∨ s.evValid = false) → step s = .next { s with inputs := rest })

/-! ### The byte instructions -/

/-- 40_decode_fsm.md R103: PREFIX_E0 completes whenever no event is pending; it writes `st` as the rule
says and nothing else, so there is no event. An accepted byte 0xE0 is this instruction. -/
def Obligations.PrefixE0MovesTheState : Prop :=
  (∀ s : State, s.evValid = false →
    (s.st = .init → exec .prefixE0 s = .next { s with st := .longCode }) ∧
    (s.st = .longCode → exec .prefixE0 s = .next { s with st := .longBreakCode }) ∧
    (s.st = .breakCode → exec .prefixE0 s = .next { s with st := .breakCode }) ∧
    (s.st = .longBreakCode → exec .prefixE0 s = .next { s with st := .longBreakCode })) ∧
  (∀ (s : State) (x : Inputs) (rest : List Inputs), RomOk s.cfg → s.inputs = x :: rest →
    accepts s x = true → x.inByte = 0xE0 → step s = exec .prefixE0 { s with inputs := rest })

/-- 40_decode_fsm.md R104: PREFIX_F0 completes whenever no event is pending; it writes `st` as the rule
says and nothing else, so there is no event. An accepted byte 0xF0 is this instruction. -/
def Obligations.PrefixF0MovesTheState : Prop :=
  (∀ s : State, s.evValid = false →
    (s.st = .init → exec .prefixF0 s = .next { s with st := .breakCode }) ∧
    (s.st = .longCode → exec .prefixF0 s = .next { s with st := .longBreakCode }) ∧
    (s.st = .breakCode → exec .prefixF0 s = .next { s with st := .breakCode }) ∧
    (s.st = .longBreakCode → exec .prefixF0 s = .next { s with st := .longBreakCode })) ∧
  (∀ (s : State) (x : Inputs) (rest : List Inputs), RomOk s.cfg → s.inputs = x :: rest →
    accepts s x = true → x.inByte = 0xF0 → step s = exec .prefixF0 { s with inputs := rest })

/-- 40_decode_fsm.md R105 (with R101): CODE completes whenever no event is pending; in each of the four
states it emits the event the rule gives, with the byte as raw code, counts the two breaks, and returns
to INIT. Only INIT reads the ROM. An accepted byte other than 0xE0 and 0xF0 is this instruction. That the
LongBreak counts is log entry 11 (DEDUCED): 41_translation.md R156 marks it derived, on decision D18. -/
def Obligations.CodeEmitsTheEventOfItsState : Prop :=
  (∀ (s : State) (b : Byte), s.evValid = false → b ≠ 0xE0 → b ≠ 0xF0 →
    (s.st = .init → isAsciiRow s.cfg.rom (lookupSB s.cfg.rom b) = true →
      ∃ a, asciiOf s.cfg.rom (lookupSB s.cfg.rom b) = some a ∧ exec (.code b) s = .next
        { s with
          st := .init, evValid := true, evKind := .asciiMake, evRaw := b, evAsciiV := true,
          evAscii := a }) ∧
    (s.st = .init → isAsciiRow s.cfg.rom (lookupSB s.cfg.rom b) = false → exec (.code b) s = .next
      { s with
        st := .init, evValid := true, evKind := .binaryMake, evRaw := b, evAsciiV := false,
        evAscii := 0x00 }) ∧
    (s.st = .longCode → exec (.code b) s = .next
      { s with
        st := .init, evValid := true, evKind := .longBinaryMake, evRaw := b, evAsciiV := false,
        evAscii := 0x00 }) ∧
    (s.st = .breakCode → exec (.code b) s = .next
      { s with
        st := .init, evValid := true, evKind := .break, evRaw := b, evAsciiV := false,
        evAscii := 0x00, dc := s.dc + 1 }) ∧
    (s.st = .longBreakCode → exec (.code b) s = .next
      { s with
        st := .init, evValid := true, evKind := .longBreak, evRaw := b, evAsciiV := false,
        evAscii := 0x00, dc := s.dc + 1 })) ∧
  (∀ (s : State) (x : Inputs) (rest : List Inputs), RomOk s.cfg → s.inputs = x :: rest →
    accepts s x = true → x.inByte ≠ 0xE0 → x.inByte ≠ 0xF0 →
    step s = exec (.code x.inByte) { s with inputs := rest })

/-- 40_decode_fsm.md R107 (and R105 in INIT): on a well-formed ROM, CODE in INIT completes with
AsciiMake and the row's ascii value where a row with that single-byte code carries one, with
BinaryMake where it carries none, and with BinaryMake where no row has the code. Nothing else
changes. -/
def Obligations.CodeInInitClassifiesByTheRom : Prop :=
  ∀ (s : State) (b : Byte), RomOk s.cfg → s.evValid = false → s.st = .init → b ≠ 0xE0 → b ≠ 0xF0 →
    (∀ (r : Row) (a : Byte), r ∈ s.cfg.rom → r.sb = some b → r.ascii = some a →
      exec (.code b) s = .next
        { s with
          st := .init, evValid := true, evKind := .asciiMake, evRaw := b, evAsciiV := true,
          evAscii := a }) ∧
    (∀ r : Row, r ∈ s.cfg.rom → r.sb = some b → r.ascii = none →
      exec (.code b) s = .next
        { s with
          st := .init, evValid := true, evKind := .binaryMake, evRaw := b, evAsciiV := false,
          evAscii := 0x00 }) ∧
    ((∀ r ∈ s.cfg.rom, r.sb ≠ some b) →
      exec (.code b) s = .next
        { s with
          st := .init, evValid := true, evKind := .binaryMake, evRaw := b, evAsciiV := false,
          evAscii := 0x00 })

/-- 10_state.md R41 (and the corner case of 42_control.md R181): `in_ready`, acceptance as an offer met by
it, and while an event is pending a byte is not taken: a sample that offers any byte without
acknowledging leaves the whole state. -/
def Obligations.PendingEventHoldsTheByteBack : Prop :=
  (∀ (s : State) (x : Inputs), inReady s x = (!s.evValid && !x.clr && !x.rst) ∧
    (accepts s x = true ↔ x.inValid = true ∧ inReady s x = true)) ∧
  (∀ (s : State) (x : Inputs) (rest : List Inputs), RomOk s.cfg → s.inputs = x :: rest →
    s.evValid = true → x.rst = false → x.clr = false → x.evAck = false →
    step s = .next { s with inputs := rest })

/-- 40_decode_fsm.md R100: a step runs a byte instruction exactly when the byte is accepted, and
acceptance is an offer met by `in_ready`. -/
def Obligations.AcceptanceIsOfferAndReady : Prop :=
  ∀ (s : State) (x : Inputs),
    (accepts s x = true ↔ x.rst = false ∧ x.clr = false ∧ x.inValid = true ∧ s.evValid = false) ∧
    (accepts s x = true → decode s.evValid x = decodeByte x.inByte) ∧
    (accepts s x = false → encodeByte (decode s.evValid x) = none)

/-- 40_decode_fsm.md R101: what `Emit` writes, with the filler 0x00 for an absent ascii value and the
increment for the three counted kinds; nothing else changes. An instruction that sets `ev_valid` is a
CODE and performs one `Emit` of its byte. While an event is pending no instruction emits: none but RST
changes an event field or `dc`; this clause R101 marks derived from R100, and of a byte instruction run
there it is the model's reading, log entry 7 (DEDUCED). That LongBreak counts is log entry 11 (DEDUCED;
41_translation.md R156 marks it derived). -/
def Obligations.EmitLoadsTheEventRegister : Prop :=
  (∀ (k : EventKind) (r : Byte) (a : Option Byte) (s : State),
    emit k r a s =
      { s with
        evValid := true
        evKind := k
        evRaw := r
        evAsciiV := decide (a ≠ none)
        evAscii := (match a with
          | some v => v
          | none => 0x00)
        dc := if k = .break ∨ k = .longBreak ∨ k = .invalid then s.dc + 1 else s.dc }) ∧
  (∀ (i : Instr) (s t : State), exec i s = .next t → s.evValid = false → t.evValid = true →
    ∃ b k a, i = .code b ∧ t = setSt .init (emit k b a s)) ∧
  (∀ (i : Instr) (s t : State), exec i s = .next t → s.evValid = true → i ≠ .rst →
    t.evKind = s.evKind ∧ t.evRaw = s.evRaw ∧ t.evAsciiV = s.evAsciiV ∧ t.evAscii = s.evAscii ∧
    t.dc = s.dc)

/-- 40_decode_fsm.md R109: no byte aborts a partial sequence. An instruction that brings `st` back to
INIT from another state is RST, CLR, or a CODE byte, and the CODE byte does so by emitting the
sequence's event. That `exec` of the CODE does so only with no event pending is 40_decode_fsm.md R100 and,
inside `exec`, the model's gate, log entry 7 (DEDUCED). -/
def Obligations.NoByteAbortsASequence : Prop :=
  ∀ (i : Instr) (s t : State), s.st ≠ .init → exec i s = .next t → t.st = .init →
    i = .rst ∨ i = .clr ∨
    ∃ b, i = .code b ∧ s.evValid = false ∧
      pendingEvent t = some ⟨(classifyIn s.st s.cfg.rom b).1, b, none⟩

/-- 40_decode_fsm.md R106: in a code outside the four states (a wide-encoded `st`), an accepted byte of
any class emits Invalid with that byte and returns to INIT; in the four states such a realisation does
what the byte instructions do. That `none` stands for every such code alike is log entry 10 (DEDUCED).
With the 2-bit `st` of this model no instruction writes kind Invalid, which R106 marks derived from R85
and R103-R105. -/
def Obligations.DefaultArmEmitsInvalid : Prop :=
  (∀ (s : State) (b : Byte), s.evValid = false →
    wideByte none b s =
      { s with
        st := .init, evValid := true, evKind := .invalid, evRaw := b, evAsciiV := false,
        evAscii := 0x00, dc := s.dc + 1 }) ∧
  (∀ (s : State) (b : Byte), exec (decodeByte b) s = .next (wideByte (some s.st) b s)) ∧
  (∀ (i : Instr) (s t : State), exec i s = .next t → t.evKind = .invalid → s.evKind = .invalid)

/-! ### ROM and label ports -/

/-- 20_memory.md R54: `LookupSB` is the least index of a row with that single-byte code, else `N`. -/
def Obligations.LookupSBIsTheLeastMatchElseN : Prop :=
  ∀ (rom : Rom) (b : Byte) (i : Nat), lookupSB rom b = i ↔
    ((∃ r, rom[i]? = some r ∧ r.sb = some b) ∧ ∀ j r, j < i → rom[j]? = some r → r.sb ≠ some b) ∨
    (i = rom.length ∧ ∀ r ∈ rom, r.sb ≠ some b)

/-- 20_memory.md R55: `LookupEXT` is the least index of a row with that extended code, else `N`. -/
def Obligations.LookupEXTIsTheLeastMatchElseN : Prop :=
  ∀ (rom : Rom) (b : Byte) (i : Nat), lookupEXT rom b = i ↔
    ((∃ r, rom[i]? = some r ∧ r.ext = some b) ∧ ∀ j r, j < i → rom[j]? = some r → r.ext ≠ some b) ∨
    (i = rom.length ∧ ∀ r ∈ rom, r.ext ≠ some b)

/-- 20_memory.md R56, R58: an index is ASCII-producing iff it is of a row that carries an ascii value
(so a miss never is); label length and label characters are those of the row, 0 and 0x00 outside. -/
def Obligations.RowReadsAreTotal : Prop :=
  ∀ (rom : Rom) (i : Nat),
    (isAsciiRow rom i = true ↔ ∃ r, rom[i]? = some r ∧ r.ascii ≠ none) ∧
    (∀ r, rom[i]? = some r → labelLen rom i = r.label.length ∧
      (∀ p c, r.label[p]? = some c → labelChar rom i p = c) ∧
      (∀ p, r.label.length ≤ p → labelChar rom i p = 0x00)) ∧
    (rom.length ≤ i → labelLen rom i = 0 ∧ ∀ p, labelChar rom i p = 0x00)

/-- 20_memory.md R53: every row index the block forms is at most `N` and fits `IDX_W` bits, the least
width with `N < 2^w`; for `N` = 102 that is 7. A label length on the port fits `LEN_W` bits. The position
on `lbl_pos` (10_state.md R40) has `LEN_W` bits: it is below `2^LEN_W`, and a sample's number that fits,
every position of a label among them, arrives unchanged. That a larger number is cut to its low bits is
the model's choice (log entry 9). -/
def Obligations.IndicesFitTheirWidths : Prop :=
  (∀ s : State, lblRow s ≤ s.cfg.rom.length ∧ lblRow s < 2 ^ idxW s.cfg.rom) ∧
  (∀ (rom : Rom) (w : Nat), rom.length < 2 ^ w → idxW rom ≤ w) ∧
  (∀ rom : Rom, rom.length = 102 → idxW rom = 7) ∧
  (∀ s : State, RomOk s.cfg → lblLen s < 2 ^ lenW s.cfg.labelMax) ∧
  (∀ m w : Nat, m < 2 ^ w → lenW m ≤ w) ∧
  (∀ (s : State) (x : Inputs), (lblPosPort s x).toNat < 2 ^ lenW s.cfg.labelMax ∧
    (x.lblPos < 2 ^ lenW s.cfg.labelMax → (lblPosPort s x).toNat = x.lblPos)) ∧
  (∀ (s : State) (x : Inputs), RomOk s.cfg → x.lblPos ≤ lblLen s →
    (lblPosPort s x).toNat = x.lblPos)

/-- 41_translation.md R150, R151, R152, R158: the translation row of each kind, the label read there,
and no label for the three kinds without one, whatever the ROM has for their raw code; the reserved
codes 6 and 7 have none either. -/
def Obligations.LabelPortsTranslateTheHeldEvent : Prop :=
  (∀ s : State,
    (s.evKind = .asciiMake ∨ s.evKind = .binaryMake → lblRow s = lookupSB s.cfg.rom s.evRaw) ∧
    (s.evKind = .longBinaryMake → lblRow s = lookupEXT s.cfg.rom s.evRaw) ∧
    (s.evKind = .break ∨ s.evKind = .longBreak ∨ s.evKind = .invalid →
      lblRow s = s.cfg.rom.length ∧ lblLen s = 0 ∧ ∀ p, lblChar s p = 0x00) ∧
    lblLen s = labelLen s.cfg.rom (lblRow s) ∧
    (∀ p, lblChar s p = labelChar s.cfg.rom (lblRow s) p) ∧
    (∀ p, lblLen s ≤ p → lblChar s p = 0x00)) ∧
  (∀ (rom : Rom) (raw : Byte),
    translateRowOfCode rom 6 raw = rom.length ∧ translateRowOfCode rom 7 raw = rom.length ∧
    ∀ k, translateRowOfCode rom (kindCode k) raw = translateRow rom k raw)

/-- The anomaly classes of 60_exceptions.md R201 (a table gathered from R103-R107 and R156), each a
normal outcome. AN1, AN2: a lookup miss is an event with the byte recorded, an empty label and the
counter unchanged. AN3: a break of a code in no row is a break like any other. AN4: a state code
outside the four gives Invalid and counts (`none` for every such code is log entry 10, DEDUCED). AN5: a
repeated prefix byte is no event and no error. That LongBreak counts is log entry 11 (DEDUCED). -/
def Obligations.AnomaliesAreNormalOutcomes : Prop :=
  ∀ (s : State) (b : Byte), s.evValid = false →
    (s.st = .init → classOf b = .code → (∀ r ∈ s.cfg.rom, r.sb ≠ some b) →
      ∃ t, exec (.code b) s = .next t ∧ pendingEvent t = some ⟨.binaryMake, b, none⟩ ∧
        lblRow t = s.cfg.rom.length ∧ lblLen t = 0 ∧ t.dc = s.dc) ∧
    (s.st = .longCode → classOf b = .code → (∀ r ∈ s.cfg.rom, r.ext ≠ some b) →
      ∃ t, exec (.code b) s = .next t ∧ pendingEvent t = some ⟨.longBinaryMake, b, none⟩ ∧
        lblRow t = s.cfg.rom.length ∧ lblLen t = 0 ∧ t.dc = s.dc) ∧
    (s.st = .breakCode ∨ s.st = .longBreakCode → classOf b = .code →
      ∃ t, exec (.code b) s = .next t ∧
        pendingEvent t = some ⟨if s.st = .breakCode then .break else .longBreak, b, none⟩ ∧
        lblLen t = 0 ∧ t.dc = s.dc + 1) ∧
    (pendingEvent (wideByte none b s) = some ⟨.invalid, b, none⟩ ∧
      (wideByte none b s).dc = s.dc + 1) ∧
    (s.st ≠ .init → classOf b ≠ .code →
      exec (decodeByte b) s = .next
        { s with st := if s.st = .longCode then .longBreakCode else s.st })

/-- 41_translation.md R159 (marked derived): every row of a well-formed ROM decodes back to itself.
The single-byte code of a row, from INIT, gives AsciiMake with the row's ascii value, or BinaryMake
where it has none, and the row's label; its extended code, after 0xE0, gives LongBinaryMake and the
row's label. -/
def Obligations.RomRowsRoundTrip : Prop :=
  ∀ (s : State) (r : Row) (rest : List Inputs), RomOk s.cfg → r ∈ s.cfg.rom → s.evValid = false →
    s.st = .init →
    (∀ k, r.sb = some k → isPrefixByte k = false → s.inputs = offers (makeSeq k) ++ rest →
      ∃ t, runSteps 1 s = .next t ∧
        pendingEvent t = some (match r.ascii with
          | some a => ⟨.asciiMake, k, some a⟩
          | none => ⟨.binaryMake, k, none⟩) ∧
        readLabel t = r.label) ∧
    (∀ x, r.ext = some x → isPrefixByte x = false → s.inputs = offers (emakeSeq x) ++ rest →
      ∃ t, runSteps 2 s = .next t ∧
        pendingEvent t = some ⟨.longBinaryMake, x, none⟩ ∧ readLabel t = r.label)

/-- 20_memory.md R60 and the worked examples W1 to W4 of 95_test_vectors.md, for every well-formed ROM
that claims to be the source's table: 0x1C from INIT is AsciiMake of 0x41 labelled "A"; E0 11 is
LongBinaryMake labelled "R ALT"; F0 1C and E0 F0 11 are Break and LongBreak with no label. That the
long break counts is 41_translation.md R156 (gap G4, log entry 11). That the characters of "A", "R ALT" and
"L SHFT" and the ascii 'A' are their ASCII bytes is log entry 4 (PRESUMED, from the spec's GK4 and GK8;
gap G9 gives no character set). -/
def Obligations.SourceExamplesHold : Prop :=
  ∀ (s : State) (rest : List Inputs), RomOk s.cfg → RomIsSourceLike s.cfg.rom → s.evValid = false →
    s.st = .init →
    (s.inputs = offers [0x1C] ++ rest → ∃ t, runSteps 1 s = .next t ∧
      pendingEvent t = some ⟨.asciiMake, 0x1C, some 0x41⟩ ∧ readLabel t = [0x41] ∧ t.dc = s.dc) ∧
    (s.inputs = offers [0xF0, 0x1C] ++ rest → ∃ t, runSteps 2 s = .next t ∧
      pendingEvent t = some ⟨.break, 0x1C, none⟩ ∧ readLabel t = [] ∧ t.dc = s.dc + 1) ∧
    (s.inputs = offers [0xE0, 0x11] ++ rest → ∃ t, runSteps 2 s = .next t ∧
      pendingEvent t = some ⟨.longBinaryMake, 0x11, none⟩ ∧
      readLabel t = [0x52, 0x20, 0x41, 0x4C, 0x54] ∧ t.dc = s.dc) ∧
    (s.inputs = offers [0xE0, 0xF0, 0x11] ++ rest → ∃ t, runSteps 3 s = .next t ∧
      pendingEvent t = some ⟨.longBreak, 0x11, none⟩ ∧ readLabel t = [] ∧ t.dc = s.dc + 1)

/-- 20_memory.md R61: the presence rule and the literal index test agree on every index of a row iff the
ROM meets the faithfulness premise; and on a miss of the 102-row table they differ. -/
def Obligations.PresenceRuleMatchesTheLiteralTest : Prop :=
  ∀ rom : Rom,
    ((∀ i, i < rom.length → isAsciiRow rom i = literalTest i) ↔ romMatchesLiteralTest rom) ∧
    (rom.length = 102 → isAsciiRow rom rom.length = false ∧ literalTest rom.length = true)

/-! ### Views of the registers -/

/-- 10_state.md R31 with 30_encoding.md R86: the fields of the packed word, its value after RST, and the
codes of the six kinds. -/
def Obligations.EvrPacksTheEventRegister : Prop :=
  (∀ s : State, (evr s).getLsbD 20 = s.evValid ∧ (evr s).extractLsb' 17 3 = kindCode s.evKind ∧
    (evr s).extractLsb' 9 8 = s.evRaw ∧ (evr s).getLsbD 8 = s.evAsciiV ∧
    (evr s).extractLsb' 0 8 = s.evAscii) ∧
  (∀ s t : State, exec .rst s = .next t → evr t = 0x000000) ∧
  kindCode .asciiMake = 0b000 ∧ kindCode .binaryMake = 0b001 ∧ kindCode .longBinaryMake = 0b010 ∧
  kindCode .break = 0b011 ∧ kindCode .longBreak = 0b100 ∧ kindCode .invalid = 0b101

/-- 30_encoding.md R85, R86, R87: the state codes are a bijection onto the 2-bit words, and the kind
codes are distinct and leave 6 and 7 out. -/
def Obligations.StateAndKindCodesAreFaithful : Prop :=
  stCode .init = 0b00 ∧ stCode .longCode = 0b01 ∧ stCode .breakCode = 0b10 ∧
  stCode .longBreakCode = 0b11 ∧ (∀ q, stOfCode (stCode q) = q) ∧ (∀ c, stCode (stOfCode c) = c) ∧
  (∀ k, kindOfCode (kindCode k) = some k) ∧ (∀ c, kindOfCode c = none ↔ c = 6 ∨ c = 7)

/-- 10_state.md R42: every output is a function of the registers, the ROM and `lbl_pos` (`in_ready` of
`clr` and `rst` besides); none depends on `in_byte` or `in_valid`. The event ports, `diag_count` and
`dbg_state` are the registers themselves, the label ports those of 41_translation.md R150-R152, and
`in_ready` that of 10_state.md R41, for every value of the `LEN_W`-bit port `lbl_pos` (R40). -/
def Obligations.OutputsDependOnNothingElse : Prop :=
  (∀ (s t : State) (x y : Inputs), SameRegisters s t → t.cfg = s.cfg →
    x.rst = y.rst → x.clr = y.clr → x.lblPos = y.lblPos → outputs t y = outputs s x) ∧
  (∀ (s : State) (x : Inputs), x.lblPos < 2 ^ lenW s.cfg.labelMax →
    outputs s x =
      { inReady := !s.evValid && !x.clr && !x.rst
        evValid := s.evValid
        evKind := kindCode s.evKind
        evRaw := s.evRaw
        evAsciiV := s.evAsciiV
        evAscii := s.evAscii
        lblRow := translateRow s.cfg.rom s.evKind s.evRaw
        lblLen := labelLen s.cfg.rom (translateRow s.cfg.rom s.evKind s.evRaw)
        lblChar := labelChar s.cfg.rom (translateRow s.cfg.rom s.evKind s.evRaw) x.lblPos
        diagCount := s.dc
        dbgState := stCode s.st })

/-! ### Rules about the whole machine -/

/-- Every step keeps `EventConsistent`: the raw code is no prefix byte (10_state.md R28), kind Invalid is
never written (40_decode_fsm.md R106), ascii goes with AsciiMake (10_state.md R29), `st` is INIT while an
event is pending (R25), and a held ascii value is the ROM's (40_decode_fsm.md R107). -/
def Obligations.StepKeepsTheEventRegisterConsistent : Prop :=
  ∀ s t : State, EventConsistent s → step s = .next t → EventConsistent t

/-- The reset state is consistent, for every ROM and every environment: RST establishes
`EventConsistent` from any state, and `State.reset` has it. -/
def Obligations.ResetIsConsistent : Prop :=
  EventConsistent State.reset ∧ ∀ s t : State, exec .rst s = .next t → EventConsistent t

/-- 10_state.md R35, the column "written by": a register that an instruction changes is one the
instruction writes. Only byte instructions, CLR and RST change `st`; only CODE sets `ev_valid` and only
ACK, CLR and RST clear it; only CODE and RST change the event fields; only RST and a CODE that
completes a break change `dc`. No instruction changes the parameters or the environment's samples. The
conjuncts `s.evValid = false` on the byte instructions are 40_decode_fsm.md R100 for a step, and for
`exec` the model's gate, log entry 7 (DEDUCED). -/
def Obligations.OnlyTheNamedInstructionsWriteEachRegister : Prop :=
  ∀ (i : Instr) (s t : State), exec i s = .next t →
    (t.st ≠ s.st → i = .rst ∨ i = .clr ∨ (s.evValid = false ∧ encodeByte i ≠ none)) ∧
    (s.evValid = false → t.evValid = true → ∃ b, i = .code b) ∧
    (s.evValid = true → t.evValid = false → i = .rst ∨ i = .clr ∨ i = .ack) ∧
    ((t.evKind ≠ s.evKind ∨ t.evRaw ≠ s.evRaw ∨ t.evAsciiV ≠ s.evAsciiV ∨ t.evAscii ≠ s.evAscii) →
      i = .rst ∨ (s.evValid = false ∧ ∃ b, i = .code b)) ∧
    (t.dc ≠ s.dc → i = .rst ∨ (s.evValid = false ∧ (s.st = .breakCode ∨ s.st = .longBreakCode) ∧
      ∃ b, i = .code b)) ∧
    t.cfg = s.cfg ∧ t.inputs = s.inputs ∧ t.env = s.env ∧ t.freeEdges = s.freeEdges

/-- 70_reset_and_hazards.md R245 and 93_implementation_defined.md U15: a consumer that never acknowledges
holds the byte input for ever. While an event is pending, a run under any samples without `ev_ack`,
`clr` or `rst`, whatever bytes they offer, keeps every register. -/
def Obligations.UnacknowledgedEventHoldsTheInputForEver : Prop :=
  ∀ (s : State) (xs rest : List Inputs), RomOk s.cfg → s.evValid = true → neverTakes xs →
    s.inputs = xs ++ rest →
    runSteps xs.length s = .next { s with inputs := rest }

/-- 70_reset_and_hazards.md R242, R244: a byte offered while an event is pending is not lost. If the
producer holds it, the edge after the acknowledge accepts it. -/
def Obligations.HeldByteIsTakenAfterTheAcknowledge : Prop :=
  ∀ (s : State) (x y : Inputs) (rest : List Inputs), RomOk s.cfg → s.inputs = x :: y :: rest →
    s.evValid = true → x.rst = false → x.clr = false → x.evAck = true → x.inValid = true →
    holdsByte s x y → y.rst = false → y.clr = false →
    runSteps 2 s =
      exec (decodeByte x.inByte) { s with evValid := false, inputs := rest }

/-- 30_encoding.md R84 (marked derived from 40_decode_fsm.md R103-R105): from INIT, any number of prefix
bytes followed by a CODE byte, offered one an edge, produce exactly the one event of the grammar, after
its last byte, and leave the decoder in INIT with the counter as that event's kind says (that LongBreak
counts is log entry 11, DEDUCED). -/
def Obligations.SequencesFollowTheGrammar : Prop :=
  ∀ (s : State) (ps : List Byte) (c : Byte) (rest : List Inputs), RomOk s.cfg → s.evValid = false →
    s.st = .init → (∀ p ∈ ps, isPrefixByte p = true) → isPrefixByte c = false →
    s.inputs = offers (ps ++ [c]) ++ rest →
    ∃ t, runSteps (ps.length + 1) s = .next t ∧
      pendingEvent t = some (sequenceEvent s.cfg.rom ps c) ∧ t.st = .init ∧
      t.dc = nextDc (sequenceEvent s.cfg.rom ps c).kind s.dc ∧ t.inputs = rest ∧
      eventsDuring (ps.length + 1) s = [sequenceEvent s.cfg.rom ps c]

/-- 20_memory.md R67 (marked derived): events come in the order of their terminal bytes and none is
lost. Under an eager consumer, a stream of any number of sequences of any length produces exactly the
events of the sequences, in order. -/
def Obligations.EventsComeInTheOrderOfTheirTerminalBytes : Prop :=
  ∀ (qs : List (List Byte × Byte)) (s : State) (rest : List Inputs), RomOk s.cfg →
    s.evValid = false → s.st = .init →
    (∀ q ∈ qs, (∀ p ∈ q.1, isPrefixByte p = true) ∧ isPrefixByte q.2 = false) →
    s.inputs = qs.flatMap (fun q => eagerSamples q.1 q.2) ++ rest →
    eventsDuring (qs.flatMap fun q => eagerSamples q.1 q.2).length s =
      qs.map fun q => sequenceEvent s.cfg.rom q.1 q.2

/-- 41_translation.md R156 and 60_exceptions.md R208: the counter counts the Break, LongBreak and Invalid
events, modulo 2^32. Over any run of listed samples without `rst`, it grows by the number of such
events produced. That LongBreak is among them R156 marks derived (log entry 11, DEDUCED). -/
def Obligations.CounterCountsBreakEvents : Prop :=
  ∀ (n : Nat) (s t : State), (∀ x ∈ s.inputs, x.rst = false) → n ≤ s.inputs.length →
    runSteps n s = .next t →
    t.dc = s.dc + BitVec.ofNat 32 (countedEvents (eventsDuring n s))

/-- 41_translation.md R157: the counter is advisory. Two states that differ in `dc` alone step to states
that differ in `dc` alone. -/
def Obligations.CounterChangesNothingElse : Prop :=
  ∀ (s t : State) (d : DiagWord), step s = .next t →
    ∃ d', step { s with dc := d } = .next { t with dc := d' }

/-- 42_control.md R186 (marked derived), the source's idempotence of reset: after a CLR or an RST in any
two states, with the same ROM and the same samples to come, the same events follow, whatever the
registers and the counter were. -/
def Obligations.SameEventsAfterClearOrReset : Prop :=
  ∀ (u₁ u₂ s₁ s₂ : State) (i₁ i₂ : Instr) (n : Nat), (i₁ = .clr ∨ i₁ = .rst) →
    (i₂ = .clr ∨ i₂ = .rst) → exec i₁ u₁ = .next s₁ → exec i₂ u₂ = .next s₂ →
    s₁.cfg = s₂.cfg → s₁.inputs = s₂.inputs → n ≤ s₁.inputs.length →
    eventsDuring n s₁ = eventsDuring n s₂

/-- 70_reset_and_hazards.md R234 (marked derived): a clear or a reset between two bytes of a sequence
loses the prefix. Whatever `st` was, a CODE byte offered at the edge after it decodes from INIT, as
AsciiMake or BinaryMake by the single-byte column. -/
def Obligations.ClearInsideASequenceLosesThePrefix : Prop :=
  ∀ (s : State) (x : Inputs) (b : Byte) (rest : List Inputs), RomOk s.cfg →
    (x.rst = true ∨ x.clr = true) → isPrefixByte b = false → s.inputs = x :: offerByte b :: rest →
    ∃ t, runSteps 2 s = .next t ∧ pendingEvent t = some (sequenceEvent s.cfg.rom [] b)

/-- 20_memory.md R72, 10_state.md R44, 60_exceptions.md R210: instances share the ROM and nothing else, each
having an environment of its own. A step of one instance is its own step and leaves every other one as
it was, all keep the one ROM and their own environments, and freshly reset instances have both. That
instances are a list of states stepped one at a time, and that an environment is named by a number, is
the model's choice (DESIGN CHOICE, log entry 14). -/
def Obligations.InstancesAreIndependent : Prop :=
  (∀ (k : Nat) (xs ys : List State) (cfg : Config), shareRom cfg xs → ownEnvironments xs →
    stepInstance k xs = .next ys →
    shareRom cfg ys ∧ ownEnvironments ys ∧ (∀ j, j ≠ k → ys[j]? = xs[j]?) ∧
    (∀ s, xs[k]? = some s → ∃ t, step s = .next t ∧ ys[k]? = some t)) ∧
  (∀ (cfg : Config) (n : Nat), shareRom cfg (instancesAtReset cfg n) ∧
    ownEnvironments (instancesAtReset cfg n) ∧ (instancesAtReset cfg n).length = n)

/-- The model's reading, log entry 7 (DEDUCED): a byte instruction run by `exec` while an event is pending
changes nothing, the byte waiting as 40_decode_fsm.md R100 and 42_control.md R181 say. No step runs one
there, the second clause. -/
def Obligations.ByteInstructionWaitsWhileAnEventIsPending : Prop :=
  (∀ (s : State) (b : Byte), s.evValid = true → exec (decodeByte b) s = .next s) ∧
  (∀ x : Inputs, encodeByte (decode true x) = none)
end

