-- ==== Sys2Proof/Laws/State.lean ====
section
/-! SUPPORT. One lemma per field per update of the state, so that no proof unfolds a record update. -/

namespace Sys2Proof.Machine

/-! ### `setSt` -/

@[simp] theorem setSt_st (q : DecoderState) (s : State) : (setSt q s).st = q := rfl
@[simp] theorem setSt_evValid (q : DecoderState) (s : State) : (setSt q s).evValid = s.evValid := rfl
@[simp] theorem setSt_evKind (q : DecoderState) (s : State) : (setSt q s).evKind = s.evKind := rfl
@[simp] theorem setSt_evRaw (q : DecoderState) (s : State) : (setSt q s).evRaw = s.evRaw := rfl
@[simp] theorem setSt_evAsciiV (q : DecoderState) (s : State) : (setSt q s).evAsciiV = s.evAsciiV := rfl
@[simp] theorem setSt_evAscii (q : DecoderState) (s : State) : (setSt q s).evAscii = s.evAscii := rfl
@[simp] theorem setSt_dc (q : DecoderState) (s : State) : (setSt q s).dc = s.dc := rfl
@[simp] theorem setSt_cfg (q : DecoderState) (s : State) : (setSt q s).cfg = s.cfg := rfl
@[simp] theorem setSt_env (q : DecoderState) (s : State) : (setSt q s).env = s.env := rfl
@[simp] theorem setSt_inputs (q : DecoderState) (s : State) : (setSt q s).inputs = s.inputs := rfl
@[simp] theorem setSt_freeEdges (q : DecoderState) (s : State) : (setSt q s).freeEdges = s.freeEdges := rfl

/-! ### `emit` -/

@[simp] theorem emit_st (k : EventKind) (r : Byte) (a : Option Byte) (s : State) : (emit k r a s).st = s.st := rfl
@[simp] theorem emit_evValid (k : EventKind) (r : Byte) (a : Option Byte) (s : State) : (emit k r a s).evValid = true := rfl
@[simp] theorem emit_evKind (k : EventKind) (r : Byte) (a : Option Byte) (s : State) : (emit k r a s).evKind = k := rfl
@[simp] theorem emit_evRaw (k : EventKind) (r : Byte) (a : Option Byte) (s : State) : (emit k r a s).evRaw = r := rfl
@[simp] theorem emit_evAsciiV (k : EventKind) (r : Byte) (a : Option Byte) (s : State) : (emit k r a s).evAsciiV = asciiFlag a := rfl
@[simp] theorem emit_evAscii (k : EventKind) (r : Byte) (a : Option Byte) (s : State) : (emit k r a s).evAscii = asciiField a := rfl
@[simp] theorem emit_dc (k : EventKind) (r : Byte) (a : Option Byte) (s : State) : (emit k r a s).dc = nextDc k s.dc := rfl
@[simp] theorem emit_cfg (k : EventKind) (r : Byte) (a : Option Byte) (s : State) : (emit k r a s).cfg = s.cfg := rfl
@[simp] theorem emit_env (k : EventKind) (r : Byte) (a : Option Byte) (s : State) : (emit k r a s).env = s.env := rfl
@[simp] theorem emit_inputs (k : EventKind) (r : Byte) (a : Option Byte) (s : State) : (emit k r a s).inputs = s.inputs := rfl
@[simp] theorem emit_freeEdges (k : EventKind) (r : Byte) (a : Option Byte) (s : State) : (emit k r a s).freeEdges = s.freeEdges := rfl

/-! ### `dropEvent` -/

@[simp] theorem dropEvent_st (s : State) : (dropEvent s).st = s.st := rfl
@[simp] theorem dropEvent_evValid (s : State) : (dropEvent s).evValid = false := rfl
@[simp] theorem dropEvent_evKind (s : State) : (dropEvent s).evKind = s.evKind := rfl
@[simp] theorem dropEvent_evRaw (s : State) : (dropEvent s).evRaw = s.evRaw := rfl
@[simp] theorem dropEvent_evAsciiV (s : State) : (dropEvent s).evAsciiV = s.evAsciiV := rfl
@[simp] theorem dropEvent_evAscii (s : State) : (dropEvent s).evAscii = s.evAscii := rfl
@[simp] theorem dropEvent_dc (s : State) : (dropEvent s).dc = s.dc := rfl
@[simp] theorem dropEvent_cfg (s : State) : (dropEvent s).cfg = s.cfg := rfl
@[simp] theorem dropEvent_env (s : State) : (dropEvent s).env = s.env := rfl
@[simp] theorem dropEvent_inputs (s : State) : (dropEvent s).inputs = s.inputs := rfl
@[simp] theorem dropEvent_freeEdges (s : State) : (dropEvent s).freeEdges = s.freeEdges := rfl

/-! ### `resetRegisters` -/

@[simp] theorem resetRegisters_st (s : State) : (resetRegisters s).st = .init := rfl
@[simp] theorem resetRegisters_evValid (s : State) : (resetRegisters s).evValid = false := rfl
@[simp] theorem resetRegisters_evKind (s : State) : (resetRegisters s).evKind = .asciiMake := rfl
@[simp] theorem resetRegisters_evRaw (s : State) : (resetRegisters s).evRaw = 0x00 := rfl
@[simp] theorem resetRegisters_evAsciiV (s : State) : (resetRegisters s).evAsciiV = false := rfl
@[simp] theorem resetRegisters_evAscii (s : State) : (resetRegisters s).evAscii = 0x00 := rfl
@[simp] theorem resetRegisters_dc (s : State) : (resetRegisters s).dc = 0 := rfl
@[simp] theorem resetRegisters_cfg (s : State) : (resetRegisters s).cfg = s.cfg := rfl
@[simp] theorem resetRegisters_env (s : State) : (resetRegisters s).env = s.env := rfl
@[simp] theorem resetRegisters_inputs (s : State) : (resetRegisters s).inputs = s.inputs := rfl
@[simp] theorem resetRegisters_freeEdges (s : State) : (resetRegisters s).freeEdges = s.freeEdges := rfl

/-! ### `offerNext` -/

@[simp] theorem offerNext_st (x : Inputs) (s : State) : (offerNext x s).st = s.st := rfl
@[simp] theorem offerNext_evValid (x : Inputs) (s : State) : (offerNext x s).evValid = s.evValid := rfl
@[simp] theorem offerNext_evKind (x : Inputs) (s : State) : (offerNext x s).evKind = s.evKind := rfl
@[simp] theorem offerNext_evRaw (x : Inputs) (s : State) : (offerNext x s).evRaw = s.evRaw := rfl
@[simp] theorem offerNext_evAsciiV (x : Inputs) (s : State) : (offerNext x s).evAsciiV = s.evAsciiV := rfl
@[simp] theorem offerNext_evAscii (x : Inputs) (s : State) : (offerNext x s).evAscii = s.evAscii := rfl
@[simp] theorem offerNext_dc (x : Inputs) (s : State) : (offerNext x s).dc = s.dc := rfl
@[simp] theorem offerNext_cfg (x : Inputs) (s : State) : (offerNext x s).cfg = s.cfg := rfl
@[simp] theorem offerNext_env (x : Inputs) (s : State) : (offerNext x s).env = s.env := rfl
@[simp] theorem offerNext_inputs (x : Inputs) (s : State) : (offerNext x s).inputs = x :: s.inputs := rfl
@[simp] theorem offerNext_freeEdges (x : Inputs) (s : State) : (offerNext x s).freeEdges = s.freeEdges := rfl

/-! ### `pastSample` -/

@[simp] theorem pastSample_st (s : State) : (pastSample s).st = s.st := by unfold pastSample; split <;> rfl
@[simp] theorem pastSample_evValid (s : State) : (pastSample s).evValid = s.evValid := by unfold pastSample; split <;> rfl
@[simp] theorem pastSample_evKind (s : State) : (pastSample s).evKind = s.evKind := by unfold pastSample; split <;> rfl
@[simp] theorem pastSample_evRaw (s : State) : (pastSample s).evRaw = s.evRaw := by unfold pastSample; split <;> rfl
@[simp] theorem pastSample_evAsciiV (s : State) : (pastSample s).evAsciiV = s.evAsciiV := by unfold pastSample; split <;> rfl
@[simp] theorem pastSample_evAscii (s : State) : (pastSample s).evAscii = s.evAscii := by unfold pastSample; split <;> rfl
@[simp] theorem pastSample_dc (s : State) : (pastSample s).dc = s.dc := by unfold pastSample; split <;> rfl
@[simp] theorem pastSample_cfg (s : State) : (pastSample s).cfg = s.cfg := by unfold pastSample; split <;> rfl
@[simp] theorem pastSample_env (s : State) : (pastSample s).env = s.env := by unfold pastSample; split <;> rfl
@[simp] theorem pastSample_inputs (s : State) : (pastSample s).inputs = s.inputs.tail := by unfold pastSample; split <;> simp [*]

end Sys2Proof.Machine
end

