-- ==== Sys2Proof/Laws/Ops.lean ====
section
/-! SUPPORT. What the shared operations and each instruction do, said once. -/

namespace Sys2Proof.Machine

@[simp] theorem takeByte_free {f : State → State} {s : State} (h : s.evValid = false) :
    takeByte f s = f s := by simp [takeByte, h]

@[simp] theorem takeByte_pending {f : State → State} {s : State} (h : s.evValid = true) :
    takeByte f s = s := by simp [takeByte, h]

/-- Every instruction answers a next state, and this is it. -/
def after : Instr → State → State
  | .prefixE0, s => takeByte (fun s => setSt (afterE0 s.st) s) s
  | .prefixF0, s => takeByte (fun s => setSt (afterF0 s.st) s) s
  | .code b, s => takeByte (terminal b) s
  | .rst, s => resetRegisters s
  | .clr, s => dropEvent (setSt .init s)
  | .ack, s => if s.evValid then dropEvent s else s
  | .idle, s => s

theorem exec_eq_after (i : Instr) (s : State) : exec i s = .next (after i s) := by
  cases i <;> rfl

/-- No instruction writes the parameters. -/
@[simp] theorem after_cfg (i : Instr) (s : State) : (after i s).cfg = s.cfg := by
  cases i <;> simp only [after, takeByte, terminal] <;> (try split) <;> rfl

/-- No instruction writes the samples to come. -/
@[simp] theorem after_inputs (i : Instr) (s : State) : (after i s).inputs = s.inputs := by
  cases i <;> simp only [after, takeByte, terminal] <;> (try split) <;> rfl

/-- No instruction changes whose environment drives the ports. -/
@[simp] theorem after_env (i : Instr) (s : State) : (after i s).env = s.env := by
  cases i <;> simp only [after, takeByte, terminal] <;> (try split) <;> rfl

/-- No instruction draws a free sample. -/
@[simp] theorem after_freeEdges (i : Instr) (s : State) :
    (after i s).freeEdges = s.freeEdges := by
  cases i <;> simp only [after, takeByte, terminal] <;> (try split) <;> rfl

end Sys2Proof.Machine
end

