-- ==== Sys2Proof/Laws/PerInstr.lean ====
section
/-! SUPPORT. One family of statements per instruction, about its syntax. `OneByte`: an instruction has
a byte of format B8 exactly when its sample offers one, and then it is that byte (30_encoding.md R80,
R89). -/

namespace Sys2Proof.Laws.OneByte

def Statement (i : Instr) : Prop :=
  ((encode i).inValid = true ↔ encodeByte i ≠ none) ∧
  ∀ b, encodeByte i = some b → (encode i).inByte = b

theorem prefixE0 : Statement .prefixE0 := by simp [Statement, encode, encodeByte, offerByte]

theorem prefixF0 : Statement .prefixF0 := by simp [Statement, encode, encodeByte, offerByte]

theorem code (b : Byte) : Statement (.code b) := by simp [Statement, encode, encodeByte, offerByte]

theorem rst : Statement .rst := by simp [Statement, encode, encodeByte, quietInputs]

theorem clr : Statement .clr := by simp [Statement, encode, encodeByte, quietInputs]

theorem ack : Statement .ack := by simp [Statement, encode, encodeByte, quietInputs]

theorem idle : Statement .idle := by simp [Statement, encode, encodeByte, quietInputs]

end Sys2Proof.Laws.OneByte
end

