-- ==== Sys2Proof/Laws/Rom.lean ====
section
/-! SUPPORT. What the ROM primitives answer, and the Bool check of a ROM against 20_memory.md R51. -/

namespace Sys2Proof.Machine

theorem lookupCol_le (col : Row → Option Byte) (rom : Rom) (b : Byte) :
    lookupCol col rom b ≤ rom.length := List.findIdx_le_length

/-- A lookup below `N` is of a row that matches. -/
theorem lookupCol_hit {col : Row → Option Byte} {rom : Rom} {b : Byte}
    (h : lookupCol col rom b < rom.length) :
    ∃ r, rom[lookupCol col rom b]? = some r ∧ col r = some b :=
  ⟨rom[lookupCol col rom b], List.getElem?_eq_getElem h, eq_of_beq
    (List.findIdx_getElem (p := fun r => col r == some b) (w := h))⟩

/-- No row before the answer matches. -/
theorem lookupCol_before {col : Row → Option Byte} {rom : Rom} {b : Byte} {j : Nat} {r : Row}
    (hj : j < lookupCol col rom b) (hr : rom[j]? = some r) : col r ≠ some b := by
  have hlt : j < rom.length := Nat.lt_of_lt_of_le hj (lookupCol_le col rom b)
  have h := List.not_of_lt_findIdx (xs := rom) (p := fun r => col r == some b) hj
  rw [List.getElem?_eq_getElem hlt] at hr
  cases hr
  simpa using h

/-- The lookup misses exactly when no row matches. -/
theorem lookupCol_miss {col : Row → Option Byte} {rom : Rom} {b : Byte} :
    lookupCol col rom b = rom.length ↔ ∀ r ∈ rom, col r ≠ some b := by
  simp [lookupCol, List.findIdx_eq_length]

/-- Distinctness of a column by row number, the form of 20_memory.md R51, gives that a lookup finds the
row it asks for. -/
theorem lookupCol_of_row {col : Row → Option Byte} {rom : Rom} {b : Byte}
    (hd : ∀ (i j : Nat) (ri rj : Row), rom[i]? = some ri → rom[j]? = some rj →
      col ri = some b → col rj = some b → i = j)
    {i : Nat} {r : Row} (hr : rom[i]? = some r) (hc : col r = some b) :
    lookupCol col rom b = i := by
  have hlt : lookupCol col rom b < rom.length := by
    rcases Nat.lt_or_eq_of_le (lookupCol_le col rom b) with h | h
    · exact h
    · exact absurd hc (lookupCol_miss.mp h r (List.mem_of_getElem? hr))
  obtain ⟨r', hr', hc'⟩ := lookupCol_hit hlt
  exact hd _ _ _ _ hr' hr hc' hc

/-- The Bool check of one column says what 20_memory.md R51 says by row numbers. -/
theorem codesDistinct_iff (col : Row → Option Byte) (rom : Rom) :
    rom.codesDistinct col = true ↔
      ∀ (i j : Nat) (b : Byte) (ri rj : Row), rom[i]? = some ri → rom[j]? = some rj →
        col ri = some b → col rj = some b → i = j := by
  rw [Rom.codesDistinct, decide_eq_true_iff, List.Nodup, List.pairwise_filterMap,
    List.pairwise_iff_getElem]
  constructor
  · intro h i j b ri rj hi hj ci cj
    obtain ⟨hil, rfl⟩ := List.getElem?_eq_some_iff.mp hi
    obtain ⟨hjl, rfl⟩ := List.getElem?_eq_some_iff.mp hj
    rcases Nat.lt_trichotomy i j with hlt | rfl | hlt
    · exact absurd rfl (h i j hil hjl hlt b ci b cj)
    · rfl
    · exact absurd rfl (h j i hjl hil hlt b cj b ci)
  · intro h i j hi hj hlt b ci b' cj e
    subst e
    have := h i j b _ _ (List.getElem?_eq_getElem hi) (List.getElem?_eq_getElem hj) ci cj
    omega

/-- `Config.wf` is 20_memory.md R51. -/
theorem config_wf_iff (c : Config) : c.wf = true ↔ RomOk c := by
  have hl : c.rom.labelsFit c.labelMax = true ↔
      ∀ (i : Nat) (r : Row), c.rom[i]? = some r → r.label.length ≤ c.labelMax := by
    simp only [Rom.labelsFit, List.all_eq_true, decide_eq_true_eq]
    exact ⟨fun h i r hr => h r (List.mem_of_getElem? hr), fun h r hr =>
      let ⟨i, hi⟩ := List.getElem?_of_mem hr; h i r hi⟩
  rw [Config.wf, Bool.and_eq_true, Bool.and_eq_true, codesDistinct_iff, codesDistinct_iff, hl]
  exact ⟨fun ⟨⟨a, b⟩, c⟩ => ⟨a, b, c⟩, fun h => ⟨⟨h.sbDistinct, h.extDistinct⟩, h.labelsFit⟩⟩

@[simp] theorem asciiOf_miss (rom : Rom) : asciiOf rom rom.length = none := by
  simp [asciiOf, romRow]

@[simp] theorem labelAt_miss (rom : Rom) : labelAt rom rom.length = [] := by
  simp [labelAt, romRow]

theorem labelAt_row {rom : Rom} {i : Nat} {r : Row} (h : rom[i]? = some r) :
    labelAt rom i = r.label := by simp [labelAt, romRow, h]

theorem asciiOf_row {rom : Rom} {i : Nat} {r : Row} (h : rom[i]? = some r) :
    asciiOf rom i = r.ascii := by simp [asciiOf, romRow, h]

end Sys2Proof.Machine
end

