-- ==== Sys2Proof/Laws/Step.lean ====
section
/-! SUPPORT. What a step can do, said once. -/

namespace Sys2Proof.Machine

/-- A step that answers a next state ran on a well-formed ROM and is the effect of the sampled
instruction. -/
theorem step_next_iff {s t : State} :
    step s = .next t ↔
      s.cfg.wf = true ∧ t = after (decode s.evValid (sampled s)) (pastSample s) := by
  unfold step
  split
  case isTrue h => rw [exec_eq_after]; simp only [Host.Outcome.next.injEq, h, true_and, eq_comm]
  case isFalse h => simp [h]

theorem sampled_cons {s : State} {x : Inputs} {rest : List Inputs}
    (h : s.inputs = x :: rest) : sampled s = x := by simp [sampled, h]

theorem pastSample_cons {s : State} {x : Inputs} {rest : List Inputs}
    (h : s.inputs = x :: rest) : pastSample s = { s with inputs := rest } := by
  simp [pastSample, h]

end Sys2Proof.Machine
end

