-- ==== Sys2Proof/Laws/Run.lean ====
section
/-! SUPPORT. Runs of steps, and the event register as its consumer reads it. -/

namespace Sys2Proof.Machine

/-- One step of the host's run of any machine that goes on. -/
theorem coreRun_next (M : Host.Core) {n : Nat} {s t : M.State} (h : M.step s = .next t) :
    M.run (n + 1) s = M.run n t := by
  simp only [Host.Core.run, h]

/-- One step of the host's run of any machine that is refused. -/
theorem coreRun_refused (M : Host.Core) {n : Nat} {s : M.State} {r : M.Refusal}
    (h : M.step s = .refused r) : M.run (n + 1) s = .refused r := by
  simp only [Host.Core.run, h]

/-- The host's run of this machine is `runSteps`. -/
theorem core_run_eq_runSteps : ∀ (n : Nat) (s : State), Sys2Proof.core.run n s = runSteps n s
  | 0, _ => rfl
  | n + 1, s => by
    rw [runSteps]
    cases h : step s with
    | next t => exact (coreRun_next Sys2Proof.core h).trans (core_run_eq_runSteps n t)
    | fault r => cases r
    | refused r => exact coreRun_refused Sys2Proof.core h

theorem run_zero (s : State) : runSteps 0 s = .next s := rfl

theorem run_succ {n : Nat} {s t : State} (h : step s = .next t) :
    runSteps (n + 1) s = runSteps n t := by
  rw [runSteps, h]

theorem run_one (s : State) : runSteps 1 s = step s := by
  rw [runSteps]
  cases step s <;> rfl

theorem run_refused {n : Nat} {s : State} {r : Refusal} (h : step s = .refused r) :
    runSteps (n + 1) s = .refused r := by
  rw [runSteps, h]

/-- A run that answers a next state begins with a step that does. -/
theorem run_succ_inv {n : Nat} {s t : State} (h : runSteps (n + 1) s = .next t) :
    ∃ u, step s = .next u ∧ runSteps n u = .next t := by
  cases hst : step s with
  | next u => exact ⟨u, rfl, by rw [← run_succ hst, h]⟩
  | fault r => cases r
  | refused r =>
    have := (run_refused (n := n) hst).symm.trans h
    cases this

/-- A well-formed ROM and a listed sample: the step, as one equation. -/
theorem step_listed {s : State} {x : Inputs} {rest : List Inputs} (ok : RomOk s.cfg)
    (h : s.inputs = x :: rest) :
    step s = .next (after (decode s.evValid x) { s with inputs := rest }) :=
  step_next_iff.mpr ⟨(config_wf_iff _).mpr ok, by rw [sampled_cons h, pastSample_cons h]⟩

/-- The flag and the field hold the optional ascii value. -/
theorem heldAscii (a : Option Byte) :
    (if asciiFlag a = true then some (asciiField a) else none) = a := by
  cases a <;> simp [asciiFlag, asciiField]

/-- Reading the label port at every position below `lbl_len` gives the label. -/
theorem readLabel_eq (s : State) : readLabel s = labelAt s.cfg.rom (lblRow s) := by
  refine List.ext_getElem? fun i => ?_
  simp only [readLabel, List.getElem?_map, lblLen, labelLen]
  by_cases h : i < (labelAt s.cfg.rom (lblRow s)).length
  · simp [h, lblChar, labelChar]
  · simp [h]

end Sys2Proof.Machine
end

