-- ==== Sys2Proof/Tests/Slice0.lean ====
section
/-! SUPPORT. Tests: words written out from the spec's encodings, ill-formed terms the checks refuse, one
step of each instruction against 95_test_vectors.md (expected values from there), and for every
statement a state and operands that meet its hypotheses. -/

namespace Sys2Proof.Tests

open Sys2Proof Sys2Proof.Machine

/-! ### Fixtures -/

/-- The fixture ROM `TROM` of 95_test_vectors.md, section 2. -/
def trom : Rom :=
  [ ⟨[0x41], some 0x41, some 0x1C, none⟩,
    ⟨[0x42], some 0x42, some 0x32, none⟩,
    ⟨[0x31], some 0x31, some 0x16, none⟩,
    ⟨[0x45, 0x4E, 0x54, 0x45, 0x52], some 0x0D, some 0x5A, some 0x5A⟩,
    ⟨[0x4C, 0x20, 0x53, 0x48, 0x46, 0x54], none, some 0x12, none⟩,
    ⟨[0x4C, 0x20, 0x41, 0x4C, 0x54], none, some 0x11, none⟩,
    ⟨[0x4C, 0x20, 0x43, 0x54, 0x52, 0x4C], none, some 0x14, none⟩,
    ⟨[0x52, 0x20, 0x41, 0x4C, 0x54], none, none, some 0x11⟩,
    ⟨[0x52, 0x20, 0x43, 0x54, 0x52, 0x4C], none, none, some 0x14⟩,
    ⟨[0x4B, 0x50, 0x20, 0x38], some 0x38, some 0x75, none⟩,
    ⟨[0x55, 0x50], none, none, some 0x75⟩ ]

/-- The reset registers over TROM, with `st` and the samples to come as given. -/
def at_ (q : DecoderState) (xs : List Inputs) : State :=
  { State.reset with st := q, cfg := { rom := trom, labelMax := 6 }, inputs := xs }

/-- AsciiMake{0x1C, 0x41} is pending (vector V30). -/
def held (xs : List Inputs) : State :=
  { at_ .init xs with evValid := true, evRaw := 0x1C, evAsciiV := true, evAscii := 0x41 }

/-- A ROM that claims to be the source's table (20_memory.md R60): "A" in row 0, "R ALT" and "L SHFT"
in rows 40 and 41, an Enter with an ascii value in row 68. -/
def sourceLike : Rom :=
  [⟨[0x41], some 0x41, some 0x1C, none⟩] ++ List.replicate 39 Config.blankRow
    ++ [⟨[0x52, 0x20, 0x41, 0x4C, 0x54], none, none, some 0x11⟩,
        ⟨[0x4C, 0x20, 0x53, 0x48, 0x46, 0x54], none, none, none⟩]
    ++ List.replicate 26 Config.blankRow ++ [⟨[], some 0x00, none, none⟩]
    ++ List.replicate 33 Config.blankRow

/-- Does the outcome go on to a state with the property? -/
def nextWith (o : Host.Outcome State Fault Refusal) (p : State → Bool) : Bool :=
  match o with
  | .next t => p t
  | .fault _ => false
  | .refused _ => false

/-- Is the outcome the refusal of the ROM? -/
def refusedRom (o : Host.Outcome State Fault Refusal) : Bool :=
  match o with
  | .next _ => false
  | .fault _ => false
  | .refused r => r == .malformedRom

theorem tromOk (q : DecoderState) (xs : List Inputs) : RomOk (at_ q xs).cfg :=
  (config_wf_iff _).mp (by decide : Config.wf { rom := trom, labelMax := 6 } = true)

theorem heldOk (xs : List Inputs) : RomOk (held xs).cfg := tromOk .init xs

/-! ### Decoding -/

theorem test_decode_prefixE0 : decodeTableWord 8 0b11100000 = some .prefixE0 := by decide

theorem test_decode_prefixF0 : decodeTableWord 8 0b11110000 = some .prefixF0 := by decide

theorem test_decode_code : decodeTableWord 8 0b00011100 = some (.code 0x1C) := by decide

theorem test_decode_rst : decode true ⟨true, true, true, 0x1C, true, 0⟩ = .rst := by decide

theorem test_decode_clr : decode true ⟨false, true, true, 0x1C, true, 0⟩ = .clr := by decide

theorem test_decode_ack : decode true ⟨false, false, true, 0x1C, true, 0⟩ = .ack := by decide

theorem test_decode_idle : decode true ⟨false, false, true, 0x1C, false, 0⟩ = .idle := by decide

/-- Vector V38: an acknowledge at the same edge does not keep a byte out. -/
theorem test_decode_byte_with_ack :
    decode false ⟨false, false, true, 0xE0, true, 0⟩ = .prefixE0 := by decide

theorem test_decode_two_bytes : decodeWord [0xE0, 0x11] = .error .longerThanOneByte := by decide

theorem test_decode_no_byte : decodeWord [] = .error .noByte := by decide

theorem test_table_word_of_two_bytes : decodeTableWord 16 0x11E0 = none := by decide

/-! ### Well-formedness: each check refuses an ill-formed term -/

theorem test_code_of_E0_ill_formed : (Instr.code 0xE0).wf = false := by decide

theorem test_code_of_F0_ill_formed : (Instr.code 0xF0).wf = false := by decide

theorem test_duplicate_sb_refused :
    refusedRom (step { at_ .init [] with
      cfg := ⟨[⟨[], none, some 0x1C, none⟩, ⟨[], none, some 0x1C, none⟩], 6⟩ }) = true := by decide

theorem test_duplicate_ext_refused :
    refusedRom (step { at_ .init [] with
      cfg := ⟨[⟨[], none, none, some 0x11⟩, ⟨[], none, none, some 0x11⟩], 6⟩ }) = true := by decide

theorem test_long_label_refused :
    refusedRom (step { at_ .init [] with
      cfg := ⟨[⟨[1, 2, 3, 4, 5, 6, 7], none, none, none⟩], 6⟩ }) = true := by decide

theorem test_same_byte_in_both_columns_accepted :
    Config.wf ⟨[⟨[], none, some 0x5A, some 0x5A⟩], 6⟩ = true := by decide

theorem test_labelMax_below_six : Config.labelMaxInRange ⟨[], 5⟩ = false := by decide

/-! ### One step of each instruction (95_test_vectors.md, section 3) -/

/-- V2 -/
theorem test_prefixE0_in_longCode :
    nextWith (exec .prefixE0 (at_ .longCode [])) (fun t => t.st == .longBreakCode && !t.evValid)
      = true := by decide

/-- V3 -/
theorem test_prefixE0_in_breakCode :
    nextWith (exec .prefixE0 (at_ .breakCode [])) (fun t => t.st == .breakCode && !t.evValid)
      = true := by decide

/-- V5 -/
theorem test_prefixF0_in_init :
    nextWith (exec .prefixF0 (at_ .init [])) (fun t => t.st == .breakCode) = true := by decide

/-- V6 -/
theorem test_prefixF0_in_longCode :
    nextWith (exec .prefixF0 (at_ .longCode [])) (fun t => t.st == .longBreakCode) = true := by decide

/-- V9 -/
theorem test_code_ascii :
    nextWith (exec (.code 0x1C) (at_ .init []))
      (fun t => evr t == 0x103941 && lblRow t == 0 && t.dc == 0) = true := by decide

/-- V37 -/
theorem test_code_break_wraps_dc :
    nextWith (exec (.code 0x1C) { at_ .breakCode [] with dc := 0xFFFFFFFF })
      (fun t => evr t == 0x163800 && t.st == .init && t.dc == 0) = true := by decide

/-- V36 -/
theorem test_rst :
    nextWith (step { held [⟨true, true, true, 0x32, true, 0⟩] with dc := 7 })
      (fun t => evr t == 0 && t.st == .init && t.dc == 0) = true := by decide

/-- V34 -/
theorem test_clr_drops_partial_sequence :
    nextWith (step { at_ .longBreakCode [⟨false, true, true, 0x11, false, 0⟩] with dc := 5 })
      (fun t => t.st == .init && !t.evValid && t.dc == 5) = true := by decide

/-- V35 -/
theorem test_clr_keeps_fields :
    nextWith (exec .clr { held [] with evKind := .break, dc := 1 })
      (fun t => !t.evValid && t.evKind == .break && t.evRaw == 0x1C && t.dc == 1) = true := by decide

/-- V31 -/
theorem test_ack_takes_event_not_byte :
    nextWith (step (held [⟨false, false, true, 0x32, true, 0⟩]))
      (fun t => t == { held [] with evValid := false }) = true := by decide

/-- V33 -/
theorem test_ack_without_event :
    nextWith (step (at_ .init [⟨false, false, false, 0, true, 0⟩])) (fun t => t == at_ .init [])
      = true := by decide

/-- V30 -/
theorem test_idle_byte_waits :
    nextWith (step (held [⟨false, false, true, 0x32, false, 0⟩])) (fun t => t == held []) = true := by
  decide

/-! ### Label port -/

/-- V41, V42 -/
theorem test_label_of_BinaryMake :
    nextWith (exec (.code 0x12) (at_ .init []))
      (fun t => readLabel t == [0x4C, 0x20, 0x53, 0x48, 0x46, 0x54] && lblChar t 6 == 0x00) = true := by
  decide

/-- V17: an extended miss has no label, not that of the single-byte row -/
theorem test_extended_miss_has_no_label :
    nextWith (exec (.code 0x1C) (at_ .longCode []))
      (fun t => evr t == 0x143800 && lblRow t == 11 && readLabel t == []) = true := by decide

/-- Three bits of `lbl_pos` for LABEL_MAX 6 (10_state.md R40): 8 is no port value and arrives as 0. -/
theorem test_lbl_pos_has_LEN_W_bits :
    (outputs (held []) { quietInputs with lblPos := 7 }).lblChar = 0x00 ∧
    (lblPosPort (held []) { quietInputs with lblPos := 8 }).toNat = 0 := by decide

theorem test_index_width : idxW trom = 4 := by decide

/-! ### The host's fetch -/

theorem test_fetch_word_runs_first :
    nextWith (step (State.reset.withFetchWord 8 0xE0)) (fun t => t.st == .longCode) = true := by decide

/-! ### Witnesses: the hypotheses of each statement are met -/

theorem witness_DecodeAndEncodeAgree :
    (Instr.code 0x00).wf = true ∧ Instr.prefixE0.wf = true ∧ encodeByte .rst = none ∧
    (Instr.code 0xFF).wf = true ∧ encode (.code 0xFF) = encode (.code 0xFF) := by decide

theorem witness_SamplesAskForInstructionsInPriorityOrder :
    ∃ a b c d e f : Inputs, a.rst = true ∧ (b.rst = false ∧ b.clr = true) ∧
      (c.rst = false ∧ c.clr = false ∧ c.evAck = true) ∧
      (d.rst = false ∧ d.clr = false ∧ d.evAck = false) ∧
      (e.rst = false ∧ e.clr = false ∧ e.inValid = true) ∧
      (f.rst = false ∧ f.clr = false ∧ f.inValid = false ∧ f.evAck = false) :=
  ⟨encode .rst, encode .clr, encode .ack, encode .idle, encode .prefixE0, encode .idle, by decide⟩

theorem witness_RstWritesTheResetState :
    ∃ (s : State) (x : Inputs) (rest : List Inputs), RomOk s.cfg ∧ s.inputs = x :: rest ∧
      x.rst = true := ⟨held [encode .rst], _, _, heldOk _, rfl, rfl⟩

theorem witness_StateAndOutputsAfterReset : ∃ s t : State, exec .rst s = .next t :=
  ⟨held [], _, rfl⟩

theorem witness_StepRunsTheDecodedInstruction :
    (∃ (s : State) (x : Inputs) (rest : List Inputs), s.cfg.wf = true ∧ s.inputs = x :: rest ∧
      (decode s.evValid x).wf = true) ∧
    (∃ s : State, s.cfg.wf = true ∧ s.inputs = []) :=
  ⟨⟨at_ .init [encode (.code 0x1C)], _, _, by decide, rfl, by decide⟩, at_ .init [], by decide, rfl⟩

theorem witness_CompleteStepFollowsThePriorityOrder :
    ∃ (s : State) (x : Inputs) (rest : List Inputs), RomOk s.cfg ∧ s.inputs = x :: rest :=
  ⟨at_ .init [encode .prefixF0], _, _, tromOk _ _, rfl⟩

theorem witness_StepsNeverStopOnAWellFormedRom : ∃ s : State, RomOk s.cfg := ⟨_, tromOk .init []⟩

theorem witness_MalformedRomsAreRefused : ∃ s t : State, RomOk s.cfg ∧ ¬ RomOk t.cfg :=
  ⟨at_ .init [], { at_ .init [] with cfg := ⟨[⟨[1, 2], none, none, none⟩], 1⟩ }, tromOk _ _,
    fun h => absurd ((config_wf_iff _).mpr h) (by decide)⟩

theorem witness_StepKeepsParametersAndUsesOneSample :
    ∃ s t u v : State, step s = .next t ∧ s.inputs ≠ [] ∧ step u = .next v ∧ u.inputs = [] :=
  ⟨at_ .init [encode .idle], _, at_ .init [], _, step_next_iff.mpr ⟨by decide, rfl⟩, by decide,
    step_next_iff.mpr ⟨by decide, rfl⟩, rfl⟩

theorem witness_ClrDiscardsSequenceAndEvent :
    ∃ (s : State) (x : Inputs) (rest : List Inputs), RomOk s.cfg ∧ s.inputs = x :: rest ∧
      x.rst = false ∧ x.clr = true := ⟨at_ .longCode [encode .clr], _, _, tromOk _ _, rfl, rfl, rfl⟩

theorem witness_AckConsumesThePendingEvent :
    (∃ (s : State) (x : Inputs) (rest : List Inputs), RomOk s.cfg ∧ s.inputs = x :: rest ∧
      x.rst = false ∧ x.clr = false ∧ x.evAck = true ∧ s.evValid = true ∧ accepts s x = false) ∧
    (∃ (s : State) (x : Inputs) (rest : List Inputs), RomOk s.cfg ∧ s.inputs = x :: rest ∧
      x.rst = false ∧ x.clr = false ∧ x.evAck = true ∧ s.evValid = false ∧ accepts s x = false) :=
  ⟨⟨held [encode .ack], _, _, heldOk _, rfl, rfl, rfl, rfl, rfl, rfl⟩,
    at_ .init [encode .ack], _, _, tromOk _ _, rfl, rfl, rfl, rfl, rfl, rfl⟩

theorem witness_IdleChangesNothing :
    (∃ (s : State) (x : Inputs) (rest : List Inputs), RomOk s.cfg ∧ s.inputs = x :: rest ∧
      x.rst = false ∧ x.clr = false ∧ x.inValid = true ∧ s.evValid = true ∧ x.evAck = false) ∧
    (∃ (s : State) (x : Inputs) (rest : List Inputs), RomOk s.cfg ∧ s.inputs = x :: rest ∧
      x.rst = false ∧ x.clr = false ∧ x.inValid = false ∧ x.evAck = true ∧ s.evValid = false) :=
  ⟨⟨held [offerByte 0x32], _, _, heldOk _, rfl, rfl, rfl, rfl, rfl, rfl⟩,
    at_ .init [encode .ack], _, _, tromOk _ _, rfl, rfl, rfl, rfl, rfl, rfl⟩

theorem witness_PrefixE0MovesTheState :
    (∀ q : DecoderState, (at_ q []).evValid = false ∧ (at_ q []).st = q) ∧
    ∃ (s : State) (x : Inputs) (rest : List Inputs), RomOk s.cfg ∧ s.inputs = x :: rest ∧
      accepts s x = true ∧ x.inByte = 0xE0 :=
  ⟨fun _ => ⟨rfl, rfl⟩, at_ .init [offerByte 0xE0], _, _, tromOk _ _, rfl, rfl, rfl⟩

theorem witness_PrefixF0MovesTheState :
    (∀ q : DecoderState, (at_ q []).evValid = false ∧ (at_ q []).st = q) ∧
    ∃ (s : State) (x : Inputs) (rest : List Inputs), RomOk s.cfg ∧ s.inputs = x :: rest ∧
      accepts s x = true ∧ x.inByte = 0xF0 :=
  ⟨fun _ => ⟨rfl, rfl⟩, at_ .init [offerByte 0xF0], _, _, tromOk _ _, rfl, rfl, rfl⟩

theorem witness_CodeEmitsTheEventOfItsState :
    (∀ q : DecoderState, (at_ q []).evValid = false ∧ (at_ q []).st = q) ∧
    (0x1C : Byte) ≠ 0xE0 ∧ (0x1C : Byte) ≠ 0xF0 ∧
    isAsciiRow (at_ .init []).cfg.rom (lookupSB (at_ .init []).cfg.rom 0x1C) = true ∧
    isAsciiRow (at_ .init []).cfg.rom (lookupSB (at_ .init []).cfg.rom 0xFF) = false ∧
    ∃ (s : State) (x : Inputs) (rest : List Inputs), RomOk s.cfg ∧ s.inputs = x :: rest ∧
      accepts s x = true ∧ x.inByte ≠ 0xE0 ∧ x.inByte ≠ 0xF0 :=
  ⟨fun _ => ⟨rfl, rfl⟩, by decide, by decide, by decide, by decide,
    at_ .init [offerByte 0x1C], _, _, tromOk _ _, rfl, rfl, by decide, by decide⟩

theorem witness_CodeInInitClassifiesByTheRom :
    RomOk (at_ .init []).cfg ∧ (at_ .init []).evValid = false ∧ (at_ .init []).st = .init ∧
    (∃ r ∈ (at_ .init []).cfg.rom, r.sb = some 0x1C ∧ r.ascii = some 0x41) ∧
    (∃ r ∈ (at_ .init []).cfg.rom, r.sb = some 0x12 ∧ r.ascii = none) ∧
    (∀ r ∈ (at_ .init []).cfg.rom, r.sb ≠ some 0x77) :=
  ⟨tromOk _ _, rfl, rfl, by decide, by decide, by decide⟩

theorem witness_PendingEventHoldsTheByteBack :
    ∃ (s : State) (x : Inputs) (rest : List Inputs), RomOk s.cfg ∧ s.inputs = x :: rest ∧
      s.evValid = true ∧ x.rst = false ∧ x.clr = false ∧ x.evAck = false :=
  ⟨held [offerByte 0x32], _, _, heldOk _, rfl, rfl, rfl, rfl, rfl⟩

theorem witness_AcceptanceIsOfferAndReady :
    accepts (at_ .init []) (offerByte 0x1C) = true ∧ accepts (held []) (offerByte 0x1C) = false := by
  decide

theorem witness_EmitLoadsTheEventRegister :
    (∃ s t : State, exec (.code 0x1C) s = .next t ∧ s.evValid = false ∧ t.evValid = true) ∧
    (∃ s t : State, exec .clr s = .next t ∧ s.evValid = true ∧ Instr.clr ≠ .rst) :=
  ⟨⟨at_ .init [], _, exec_eq_after _ _, rfl, rfl⟩, held [], _, rfl, rfl, by decide⟩

theorem witness_NoByteAbortsASequence :
    ∃ s t u : State, s.st ≠ .init ∧ exec (.code 0x1C) s = .next t ∧ t.st = .init ∧
      exec .clr s = .next u ∧ u.st = .init :=
  ⟨at_ .longBreakCode [], _, _, by decide, exec_eq_after _ _, rfl, rfl, rfl⟩

theorem witness_DefaultArmEmitsInvalid :
    (at_ .init []).evValid = false ∧
    ∃ s t : State, exec .idle s = .next t ∧ t.evKind = .invalid :=
  ⟨rfl, { at_ .init [] with evKind := .invalid }, _, rfl, rfl⟩

theorem witness_RowReadsAreTotal :
    (∃ r, trom[4]? = some r ∧ r.label[5]? = some 0x54 ∧ r.label.length ≤ 6) ∧ trom.length ≤ 11 :=
  ⟨⟨_, rfl, by decide, by decide⟩, by decide⟩

theorem witness_IndicesFitTheirWidths :
    trom.length < 2 ^ 4 ∧ sourceLike.length = 102 ∧ RomOk (held []).cfg ∧ 6 < 2 ^ 3 ∧
    ({ quietInputs with lblPos := 7 } : Inputs).lblPos < 2 ^ lenW (held []).cfg.labelMax ∧
    ({ quietInputs with lblPos := 1 } : Inputs).lblPos ≤ lblLen (held []) :=
  ⟨by decide, by decide, heldOk _, by decide, by decide, by decide⟩

theorem witness_LabelPortsTranslateTheHeldEvent :
    (∀ k : EventKind, ({ held [] with evKind := k } : State).evKind = k) ∧ lblLen (held []) ≤ 1 :=
  ⟨fun _ => rfl, by decide⟩

theorem witness_AnomaliesAreNormalOutcomes :
    (∀ q : DecoderState, (at_ q []).evValid = false ∧ (at_ q []).st = q) ∧
    classOf 0x77 = .code ∧ classOf 0xE0 ≠ .code ∧
    (∀ r ∈ (at_ .init []).cfg.rom, r.sb ≠ some 0x77) ∧
    (∀ r ∈ (at_ .longCode []).cfg.rom, r.ext ≠ some 0x77) :=
  ⟨fun _ => ⟨rfl, rfl⟩, by decide, by decide, by decide, by decide⟩

theorem witness_RomRowsRoundTrip :
    (∃ (s : State) (r : Row) (rest : List Inputs), RomOk s.cfg ∧ r ∈ s.cfg.rom ∧ s.evValid = false ∧
      s.st = .init ∧ r.sb = some 0x5A ∧ isPrefixByte 0x5A = false ∧
      s.inputs = offers (makeSeq 0x5A) ++ rest) ∧
    (∃ (s : State) (r : Row) (rest : List Inputs), RomOk s.cfg ∧ r ∈ s.cfg.rom ∧ s.evValid = false ∧
      s.st = .init ∧ r.ext = some 0x5A ∧ isPrefixByte 0x5A = false ∧
      s.inputs = offers (emakeSeq 0x5A) ++ rest) :=
  ⟨⟨at_ .init (offers [0x5A]), trom[3], [], tromOk _ _, by decide, rfl, rfl, rfl, by decide, rfl⟩,
    at_ .init (offers [0xE0, 0x5A]), trom[3], [], tromOk _ _, by decide, rfl, rfl, rfl, by decide, rfl⟩

theorem witness_SourceExamplesHold :
    ∃ s t u v : State,
      (RomOk s.cfg ∧ RomIsSourceLike s.cfg.rom ∧ s.evValid = false ∧ s.st = .init) ∧
      t.cfg = s.cfg ∧ u.cfg = s.cfg ∧ v.cfg = s.cfg ∧
      s.inputs = offers [0x1C] ++ [] ∧ t.inputs = offers [0xF0, 0x1C] ++ [] ∧
      u.inputs = offers [0xE0, 0x11] ++ [] ∧ v.inputs = offers [0xE0, 0xF0, 0x11] ++ [] := by
  refine ⟨{ at_ .init (offers [0x1C]) with cfg := ⟨sourceLike, 6⟩ },
    { at_ .init (offers [0xF0, 0x1C]) with cfg := ⟨sourceLike, 6⟩ },
    { at_ .init (offers [0xE0, 0x11]) with cfg := ⟨sourceLike, 6⟩ },
    { at_ .init (offers [0xE0, 0xF0, 0x11]) with cfg := ⟨sourceLike, 6⟩ },
    ⟨(config_wf_iff _).mp (by decide : Config.wf ⟨sourceLike, 6⟩ = true), ?_, rfl, rfl⟩,
    rfl, rfl, rfl, rfl, rfl, rfl, rfl⟩
  exact ⟨⟨sourceLike[0], List.getElem_mem _, by decide⟩, ⟨sourceLike[40], List.getElem_mem _, by decide⟩,
    ⟨sourceLike[41], List.getElem_mem _, by decide⟩, by decide, by decide⟩

theorem witness_PresenceRuleMatchesTheLiteralTest :
    sourceLike.length = 102 ∧ romMatchesLiteralTest [] ∧
    (∀ i, i < ([] : Rom).length → isAsciiRow [] i = literalTest i) :=
  ⟨by decide, fun i r h => by simp at h, fun i h => by simp at h⟩

theorem witness_EvrPacksTheEventRegister : ∃ s t : State, exec .rst s = .next t := ⟨held [], _, rfl⟩

theorem witness_OutputsDependOnNothingElse :
    ∃ (s t : State) (x y : Inputs), SameRegisters s t ∧ t.cfg = s.cfg ∧ x.rst = y.rst ∧
      x.clr = y.clr ∧ x.lblPos = y.lblPos ∧ x.lblPos < 2 ^ lenW s.cfg.labelMax ∧ x ≠ y ∧ t ≠ s :=
  ⟨held [], held [offerByte 0x32], offerByte 0x32, quietInputs, ⟨rfl, rfl, rfl, rfl, rfl, rfl, rfl⟩, rfl, rfl,
    rfl, rfl, by decide, by decide, by decide⟩

theorem witness_StepKeepsTheEventRegisterConsistent :
    ∃ s t : State, EventConsistent s ∧ s.evValid = true ∧ step s = .next t :=
  ⟨held [encode .ack], _, ⟨by decide, by decide, by decide, by decide, by decide, by decide,
    fun _ => ⟨trom[0], List.getElem_mem _, by decide⟩, fun h => absurd h (by decide)⟩, rfl,
    step_next_iff.mpr ⟨by decide, rfl⟩⟩

theorem witness_ResetIsConsistent : ∃ s t : State, exec .rst s = .next t := ⟨held [], _, rfl⟩

theorem witness_OnlyTheNamedInstructionsWriteEachRegister :
    (∃ s t : State, exec .prefixE0 s = .next t ∧ t.st ≠ s.st) ∧
    (∃ s t : State, exec (.code 0x1C) s = .next t ∧ s.evValid = false ∧ t.evValid = true ∧
      t.evRaw ≠ s.evRaw) ∧
    (∃ s t : State, exec .ack s = .next t ∧ s.evValid = true ∧ t.evValid = false) ∧
    (∃ s t : State, exec (.code 0x1C) s = .next t ∧ t.dc ≠ s.dc) :=
  ⟨⟨at_ .init [], _, exec_eq_after _ _, by decide⟩,
    ⟨at_ .init [], _, exec_eq_after _ _, rfl, rfl, by decide⟩,
    ⟨held [], _, exec_eq_after _ _, rfl, rfl⟩, at_ .breakCode [], _, exec_eq_after _ _, by decide⟩

theorem witness_UnacknowledgedEventHoldsTheInputForEver :
    ∃ (s : State) (xs rest : List Inputs), RomOk s.cfg ∧ s.evValid = true ∧ neverTakes xs ∧
      xs ≠ [] ∧ s.inputs = xs ++ rest :=
  ⟨held (offers [0xE0, 0x11]), offers [0xE0, 0x11], [], heldOk _, rfl, by unfold neverTakes; decide, by decide, rfl⟩

theorem witness_HeldByteIsTakenAfterTheAcknowledge :
    ∃ (s : State) (x y : Inputs) (rest : List Inputs), RomOk s.cfg ∧ s.inputs = x :: y :: rest ∧
      s.evValid = true ∧ x.rst = false ∧ x.clr = false ∧ x.evAck = true ∧ x.inValid = true ∧
      holdsByte s x y ∧ y.rst = false ∧ y.clr = false :=
  ⟨held [⟨false, false, true, 0x32, true, 0⟩, offerByte 0x32], _, _, _, heldOk _, rfl, rfl, rfl, rfl, rfl,
    rfl, fun _ _ => ⟨rfl, rfl⟩, rfl, rfl⟩

theorem witness_SequencesFollowTheGrammar :
    ∃ (s : State) (ps : List Byte) (c : Byte) (rest : List Inputs), RomOk s.cfg ∧
      s.evValid = false ∧ s.st = .init ∧ (∀ p ∈ ps, isPrefixByte p = true) ∧ ps.length = 4 ∧
      isPrefixByte c = false ∧ s.inputs = offers (ps ++ [c]) ++ rest :=
  ⟨at_ .init (offers [0xE0, 0xF0, 0xE0, 0xF0, 0x11]), [0xE0, 0xF0, 0xE0, 0xF0], 0x11, [], tromOk _ _, rfl, rfl,
    by decide, rfl, by decide, rfl⟩

theorem witness_EventsComeInTheOrderOfTheirTerminalBytes :
    ∃ (qs : List (List Byte × Byte)) (s : State) (rest : List Inputs), RomOk s.cfg ∧
      s.evValid = false ∧ s.st = .init ∧ qs.length = 2 ∧
      (∀ q ∈ qs, (∀ p ∈ q.1, isPrefixByte p = true) ∧ isPrefixByte q.2 = false) ∧
      s.inputs = qs.flatMap (fun q => eagerSamples q.1 q.2) ++ rest :=
  ⟨[([], 0x1C), ([0xF0], 0x1C)], at_ .init (eagerSamples [] 0x1C ++ eagerSamples [0xF0] 0x1C), [],
    tromOk _ _, rfl, rfl, rfl, by decide, by decide⟩

theorem witness_CounterCountsBreakEvents :
    ∃ (n : Nat) (s t : State), (∀ x ∈ s.inputs, x.rst = false) ∧ n ≤ s.inputs.length ∧
      runSteps n s = .next t ∧ t.dc ≠ s.dc :=
  ⟨1, at_ .breakCode [offerByte 0x1C], after (.code 0x1C) (at_ .breakCode []), by decide, by decide,
    by rw [run_one]; exact step_next_iff.mpr ⟨by decide, by decide⟩, by decide⟩

theorem witness_CounterChangesNothingElse : ∃ s t : State, step s = .next t :=
  ⟨at_ .breakCode [offerByte 0x1C], _, step_next_iff.mpr ⟨by decide, rfl⟩⟩

theorem witness_SameEventsAfterClearOrReset :
    ∃ (u₁ u₂ s₁ s₂ : State) (n : Nat), u₁ ≠ u₂ ∧ exec .clr u₁ = .next s₁ ∧ exec .rst u₂ = .next s₂ ∧
      s₁.cfg = s₂.cfg ∧ s₁.inputs = s₂.inputs ∧ n = 2 ∧ n ≤ s₁.inputs.length :=
  ⟨held (offers [0xF0, 0x1C]), at_ .longCode (offers [0xF0, 0x1C]), _, _, 2, by decide, rfl, rfl, rfl, rfl, rfl,
    by decide⟩

theorem witness_ClearInsideASequenceLosesThePrefix :
    ∃ (s : State) (x : Inputs) (b : Byte) (rest : List Inputs), RomOk s.cfg ∧ x.clr = true ∧
      s.st ≠ .init ∧ isPrefixByte b = false ∧ s.inputs = x :: offerByte b :: rest :=
  ⟨at_ .longCode [encode .clr, offerByte 0x11], _, 0x11, _, tromOk _ _, rfl, by decide, by decide, rfl⟩

theorem witness_InstancesAreIndependent :
    ∃ (xs ys : List State) (cfg : Config), shareRom cfg xs ∧ ownEnvironments xs ∧ xs.length = 2 ∧
      xs[1]?.isSome = true ∧ stepInstance 1 xs = .next ys := by
  have h : step { at_ .init [encode .prefixE0] with env := 1 } = .next { at_ .longCode [] with env := 1 } :=
    step_next_iff.mpr ⟨by decide, by decide⟩
  refine ⟨[held [], { at_ .init [encode .prefixE0] with env := 1 }],
    [held [], { at_ .longCode [] with env := 1 }], (held []).cfg, ?_, by unfold ownEnvironments; decide,
    rfl, rfl, ?_⟩
  · intro s hs
    simp only [List.mem_cons, List.not_mem_nil, or_false] at hs
    rcases hs with rfl | rfl <;> rfl
  · simp [stepInstance, h]

theorem witness_ByteInstructionWaitsWhileAnEventIsPending : (held []).evValid = true := by decide

end Sys2Proof.Tests
end

/-! PROOFS. The step as `exec` of the decoded sample (00_scope.md R12, R19; 42_control.md R184). -/

namespace Sys2Proof.Machine

/-- With no sample listed, the edge samples the environment's next free value. -/
theorem sampled_nil {s : State} (h : s.inputs = []) :
    sampled s = Config.freeInputs s.env s.freeEdges := by simp [sampled, h]

theorem pastSample_nil {s : State} (h : s.inputs = []) :
    pastSample s = { s with freeEdges := s.freeEdges + 1 } := by simp [pastSample, h]

/-- The ROM check passed, nothing stands between the sample and `exec`. -/
theorem step_of_wf {s : State} (hwf : s.cfg.wf = true) :
    step s = exec (decode s.evValid (sampled s)) (pastSample s) := if_pos hwf

theorem step_of_wf_cons {s : State} {x : Inputs} {rest : List Inputs} (hwf : s.cfg.wf = true)
    (h : s.inputs = x :: rest) :
    step s = exec (decode s.evValid x) { s with inputs := rest } := by
  rw [step_of_wf hwf, sampled_cons h, pastSample_cons h]

theorem step_of_wf_nil {s : State} (hwf : s.cfg.wf = true) (h : s.inputs = []) :
    step s = exec (decode s.evValid (Config.freeInputs s.env s.freeEdges))
      { s with freeEdges := s.freeEdges + 1 } := by
  rw [step_of_wf hwf, sampled_nil h, pastSample_nil h]

/-- Settles O8: past the ROM check the step is `exec` of the decoded sample, by whether a sample is
listed. The third clause is the first with the instruction named. -/
theorem stepRunsTheDecodedInstruction : Obligations.StepRunsTheDecodedInstruction := by
  refine ⟨fun s x rest hwf h => step_of_wf_cons hwf h, fun s hwf h => step_of_wf_nil hwf h, ?_⟩
  intro s x rest i hwf h hdecode _
  rw [← hdecode]
  exact step_of_wf_cons hwf h

end Sys2Proof.Machine

/-! PROOFS. What an instruction can do to the state, and the registers it writes (10_state.md R35). -/

namespace Sys2Proof.Machine

/-- The ways an instruction can act (40_decode_fsm.md R103-R105, 42_control.md R180-R183): every
instruction's next state is one of these (`after_effect`). -/
inductive Effect (s : State) : Instr → State → Prop where
  | reset : Effect s .rst (resetRegisters s)
  | clear : Effect s .clr (dropEvent (setSt .init s))
  | consume (pending : s.evValid = true) : Effect s .ack (dropEvent s)
  | advance {i : Instr} (q : DecoderState) (free : s.evValid = false)
      (byte : encodeByte i ≠ none) : Effect s i (setSt q s)
  | complete (b : Byte) (free : s.evValid = false) : Effect s (.code b) (terminal b s)
  | keep {i : Instr} : Effect s i s

/-- A byte instruction acts by its effect where no event is pending, and else keeps the state. -/
theorem takeByte_effect {f : State → State} {i : Instr} {s : State}
    (h : s.evValid = false → Effect s i (f s)) : Effect s i (takeByte f s) := by
  cases hv : s.evValid
  case false => rw [takeByte_free hv]; exact h hv
  case true => rw [takeByte_pending hv]; exact .keep

theorem after_effect (i : Instr) (s : State) : Effect s i (after i s) := by
  cases i with
  | prefixE0 => exact takeByte_effect fun free => .advance _ free (by simp [encodeByte])
  | prefixF0 => exact takeByte_effect fun free => .advance _ free (by simp [encodeByte])
  | code b => exact takeByte_effect (.complete b)
  | rst => exact .reset
  | clr => exact .clear
  | ack =>
    cases hv : s.evValid with
    | false => simpa [after, hv] using Effect.keep
    | true => simpa [after, hv] using Effect.consume hv
  | idle => exact .keep

/-- Only a break kind is counted among the kinds a state gives (41_translation.md R156). -/
theorem classifyIn_counts {q : DecoderState} {rom : Rom} {b : Byte}
    (h : countsInDc (classifyIn q rom b).1 = true) : q = .breakCode ∨ q = .longBreakCode := by
  cases q with
  | init =>
    unfold classifyIn classifyInit at h
    dsimp only at h
    split at h <;> cases h
  | longCode => cases h
  | breakCode => exact .inl rfl
  | longBreakCode => exact .inr rfl

section Writers

variable {s t : State} {i : Instr}

theorem Effect.st_writers (h : Effect s i t) (hst : t.st ≠ s.st) :
    i = .rst ∨ i = .clr ∨ (s.evValid = false ∧ encodeByte i ≠ none) := by
  cases h with
  | reset => exact .inl rfl
  | clear => exact .inr (.inl rfl)
  | consume => exact absurd rfl hst
  | advance _ free byte => exact .inr (.inr ⟨free, byte⟩)
  | complete b free => exact .inr (.inr ⟨free, by simp [encodeByte]⟩)
  | keep => exact absurd rfl hst

theorem Effect.evValid_set_by_code (h : Effect s i t) (hs : s.evValid = false)
    (ht : t.evValid = true) : ∃ b, i = .code b := by
  cases h with
  | complete b => exact ⟨b, rfl⟩
  | _ => simp [hs] at ht

theorem Effect.evValid_cleared_by (h : Effect s i t) (hs : s.evValid = true)
    (ht : t.evValid = false) : i = .rst ∨ i = .clr ∨ i = .ack := by
  cases h with
  | reset => exact .inl rfl
  | clear => exact .inr (.inl rfl)
  | consume => exact .inr (.inr rfl)
  | advance | keep => simp [hs] at ht
  | complete b free => simp [hs] at free

theorem Effect.event_writers (h : Effect s i t)
    (hne : t.evKind ≠ s.evKind ∨ t.evRaw ≠ s.evRaw ∨ t.evAsciiV ≠ s.evAsciiV ∨
      t.evAscii ≠ s.evAscii) :
    i = .rst ∨ (s.evValid = false ∧ ∃ b, i = .code b) := by
  cases h with
  | reset => exact .inl rfl
  | complete b free => exact .inr ⟨free, b, rfl⟩
  | _ => simp at hne

theorem Effect.dc_writers (h : Effect s i t) (hdc : t.dc ≠ s.dc) :
    i = .rst ∨ (s.evValid = false ∧ (s.st = .breakCode ∨ s.st = .longBreakCode) ∧
      ∃ b, i = .code b) := by
  cases h with
  | reset => exact .inl rfl
  | complete b free =>
    refine .inr ⟨free, classifyIn_counts (rom := s.cfg.rom) (b := b) ?_, b, rfl⟩
    by_contra hcount
    exact hdc (by simp [terminal, nextDc, hcount])
  | _ => simp at hdc

end Writers

/-- Settles O39: each clause is read off the ways an instruction can act. -/
theorem onlyTheNamedInstructionsWriteEachRegister :
    Obligations.OnlyTheNamedInstructionsWriteEachRegister := by
  intro i s t h
  rw [exec_eq_after] at h
  cases h
  have he := after_effect i s
  exact ⟨he.st_writers, he.evValid_set_by_code, he.evValid_cleared_by, he.event_writers,
    he.dc_writers, after_cfg i s, after_inputs i s, after_env i s, after_freeEdges i s⟩

end Sys2Proof.Machine

/-! PROOFS. The invariant of the event register (10_state.md R25, R27-R29; 40_decode_fsm.md R106, R107). -/

namespace Sys2Proof.Machine

/-- A column holds each code once, so the ascii value found for a byte is that of any row with it. -/
theorem asciiOf_lookupSB_of_row {c : Config} (ok : RomOk c) {b : Byte} {r : Row}
    (hr : r ∈ c.rom) (hb : r.sb = some b) : asciiOf c.rom (lookupSB c.rom b) = r.ascii := by
  obtain ⟨i, hi⟩ := List.getElem?_of_mem hr
  have hidx : lookupSB c.rom b = i :=
    lookupCol_of_row (fun i j => ok.sbDistinct i j b) hi hb
  rw [hidx, asciiOf_row hi]

/-- An ascii value found for a byte stands in a row with that byte. -/
theorem row_of_asciiOf_lookupSB {rom : Rom} {b a : Byte}
    (h : asciiOf rom (lookupSB rom b) = some a) : ∃ r ∈ rom, r.sb = some b ∧ r.ascii = some a := by
  have hlt : lookupSB rom b < rom.length := by
    refine Nat.lt_of_le_of_ne (lookupCol_le _ _ _) fun hmiss => ?_
    rw [hmiss, asciiOf_miss] at h
    cases h
  obtain ⟨r, hr, hb⟩ := lookupCol_hit hlt
  exact ⟨r, List.mem_of_getElem? hr, hb, (asciiOf_row hr).symm.trans h⟩

/-- What the ROM says of the kind and ascii value given to a terminal byte `b` (40_decode_fsm.md R105,
R107). -/
structure ClassOk (rom : Rom) (b : Byte) (k : EventKind) (a : Option Byte) : Prop where
  notInvalid : k ≠ .invalid
  asciiIffMake : a.isSome = true ↔ k = .asciiMake
  asciiFromRom : ∀ v, a = some v → ∃ r ∈ rom, r.sb = some b ∧ r.ascii = some v
  binaryNotAscii : k = .binaryMake → ∀ r ∈ rom, r.sb = some b → r.ascii = none

/-- A kind that reads no ROM comes without an ascii value. -/
theorem classOk_none {rom : Rom} {b : Byte} {k : EventKind} (hi : k ≠ .invalid)
    (hm : k ≠ .asciiMake) (hb : k ≠ .binaryMake) : ClassOk rom b k none where
  notInvalid := hi
  asciiIffMake := by simp [hm]
  asciiFromRom := by simp
  binaryNotAscii h := absurd h hb

theorem classifyInit_ok {c : Config} (ok : RomOk c) (b : Byte) :
    ClassOk c.rom b (classifyInit c.rom b).1 (classifyInit c.rom b).2 := by
  unfold classifyInit
  dsimp only
  split
  case isTrue hsome =>
    exact ⟨by simp, by simpa [isAsciiRow] using hsome, fun v => row_of_asciiOf_lookupSB, by simp⟩
  case isFalse hnone =>
    refine ⟨by simp, by simp, by simp, fun _ r hr hb => ?_⟩
    rw [← asciiOf_lookupSB_of_row ok hr hb]
    simpa [isAsciiRow] using hnone

theorem classifyIn_ok {c : Config} (ok : RomOk c) (q : DecoderState) (b : Byte) :
    ClassOk c.rom b (classifyIn q c.rom b).1 (classifyIn q c.rom b).2 := by
  cases q with
  | init => exact classifyInit_ok ok b
  | longCode => exact classOk_none nofun nofun nofun
  | breakCode => exact classOk_none nofun nofun nofun
  | longBreakCode => exact classOk_none nofun nofun nofun

/-- `Emit` and back to INIT establish the invariant from any state. -/
theorem emit_consistent {s : State} {b : Byte} {k : EventKind} {a : Option Byte}
    (hb : (Instr.code b).wf = true) (h : ClassOk s.cfg.rom b k a) :
    EventConsistent (setSt .init (emit k b a s)) where
  rawNotPrefix := by simpa [Instr.wf] using hb
  notInvalid := h.notInvalid
  filler hnone := by cases a with
    | none => rfl
    | some v => cases hnone
  asciiOnlyMake := h.asciiIffMake.mp
  makeHasAscii _ := h.asciiIffMake.mpr
  pendingInit _ := rfl
  asciiFromRom hsome := by cases a with
    | none => cases hsome
    | some v => exact h.asciiFromRom v rfl
  binaryNotAscii := h.binaryNotAscii

theorem resetRegisters_consistent (s : State) : EventConsistent (resetRegisters s) where
  rawNotPrefix := by rw [resetRegisters_evRaw]; decide
  notInvalid := nofun
  filler _ := rfl
  asciiOnlyMake := nofun
  makeHasAscii := nofun
  pendingInit := nofun
  asciiFromRom := nofun
  binaryNotAscii := nofun

section Keeps

variable {s : State}

/-- With nothing pending, the state machine's state is free. -/
theorem setSt_consistent (h : EventConsistent s) (free : s.evValid = false)
    (q : DecoderState) : EventConsistent (setSt q s) :=
  { h with pendingInit := fun pending => by simp [free] at pending }

theorem setSt_init_consistent (h : EventConsistent s) :
    EventConsistent (setSt .init s) :=
  { h with pendingInit := fun _ => rfl }

/-- A retained event that is no longer pending still satisfies the invariant (10_state.md R30). -/
theorem dropEvent_consistent (h : EventConsistent s) : EventConsistent (dropEvent s) :=
  { h with makeHasAscii := nofun, pendingInit := nofun }

theorem pastSample_consistent (h : EventConsistent s) : EventConsistent (pastSample s) := by
  unfold pastSample
  split
  · exact { h with }
  · exact { h with }

end Keeps

/-- Every effect of a well-formed instruction keeps the invariant. -/
theorem Effect.keeps_consistent {s t : State} {i : Instr} (h : Effect s i t) (ok : RomOk s.cfg)
    (hwf : i.wf = true) (hs : EventConsistent s) : EventConsistent t := by
  cases h with
  | reset => exact resetRegisters_consistent s
  | clear => exact dropEvent_consistent (setSt_init_consistent hs)
  | consume => exact dropEvent_consistent hs
  | advance q free => exact setSt_consistent hs free q
  | complete b => exact emit_consistent hwf (classifyIn_ok ok s.st b)
  | keep => exact hs

theorem decodeByte_wf (b : Byte) : (decodeByte b).wf = true := by
  unfold decodeByte classOf
  split_ifs with hE0 hF0
  · rfl
  · rfl
  · simp [Instr.wf, hE0, hF0]

/-- The decoder gives CODE of neither 0xE0 nor 0xF0. -/
theorem decode_wf (v : Bool) (x : Inputs) : (decode v x).wf = true := by
  unfold decode
  split_ifs
  · rfl
  · rfl
  · exact decodeByte_wf _
  · rfl
  · rfl

/-- Settles O37: using up a sample touches no register, and the decoded instruction is well-formed, so
its effect keeps the invariant. -/
theorem stepKeepsTheEventRegisterConsistent :
    Obligations.StepKeepsTheEventRegisterConsistent := by
  intro s t hs h
  obtain ⟨hwf, rfl⟩ := step_next_iff.mp h
  have ok : RomOk (pastSample s).cfg := by simpa using (config_wf_iff _).mp hwf
  exact (after_effect _ _).keeps_consistent ok (decode_wf _ _) (pastSample_consistent hs)

end Sys2Proof.Machine

/-! PROOFS. The sample a step uses up, the byte a pending event holds back, and the views of the registers
(10_state.md R31, R41-R43). -/

namespace Sys2Proof.Machine

theorem pastSample_freeEdges (s : State) :
    (pastSample s).freeEdges = s.freeEdges + (if s.inputs = [] then 1 else 0) := by
  cases h : s.inputs with
  | nil => simp [pastSample_nil h]
  | cons x rest => simp [pastSample_cons h]

/-- Settles O12: using up the sample is the only change outside the registers. -/
theorem stepKeepsParametersAndUsesOneSample :
    Obligations.StepKeepsParametersAndUsesOneSample := by
  intro s t h
  obtain ⟨-, rfl⟩ := step_next_iff.mp h
  simp [pastSample_freeEdges]

/-- While an event is pending, an edge without `rst`, `clr` or `ev_ack` is an IDLE, byte or no byte. -/
theorem decode_pending_idle {x : Inputs} (hrst : x.rst = false) (hclr : x.clr = false)
    (hack : x.evAck = false) : decode true x = .idle := by
  simp [decode, hrst, hclr, hack]

theorem accepts_iff (s : State) (x : Inputs) :
    accepts s x = true ↔ x.inValid = true ∧ inReady s x = true := by
  rw [accepts, Bool.and_eq_true]

/-- Settles O20: the edge decodes to IDLE, which changes no register. -/
theorem pendingEventHoldsTheByteBack : Obligations.PendingEventHoldsTheByteBack := by
  refine ⟨fun s x => ⟨rfl, accepts_iff s x⟩, ?_⟩
  intro s x rest ok hin pending hrst hclr hack
  rw [step_listed ok hin, pending, decode_pending_idle hrst hclr hack]
  rfl

/-- The port carries the low `LEN_W` bits of the sample's number (log entry 9). -/
theorem lblPosPort_toNat (s : State) (x : Inputs) :
    (lblPosPort s x).toNat = x.lblPos % 2 ^ lenW s.cfg.labelMax := BitVec.toNat_ofNat _ _

/-- Settles O36: every output is a function of the named fields, so equal fields give equal outputs; a
number that fits the port is its own low bits. -/
theorem outputsDependOnNothingElse : Obligations.OutputsDependOnNothingElse := by
  constructor
  · intro s t x y h hcfg hrst hclr hpos
    obtain ⟨hst, hv, hkind, hraw, hav, ha, hdc⟩ := h
    have hrow : lblRow t = lblRow s := by simp only [lblRow, hcfg, hkind, hraw]
    simp only [outputs, inReady, lblLen, lblChar, lblPosPort_toNat, hrow, hcfg, hst, hv, hkind, hraw,
      hav, ha, hdc, hrst, hclr, hpos]
  · intro s x hpos
    have hport : (lblPosPort s x).toNat = x.lblPos := by
      rw [lblPosPort_toNat, Nat.mod_eq_of_lt hpos]
    rw [outputs, hport]
    rfl

/-- The fields of the packed word: below each field stand the widths of the lower ones. -/
theorem evr_fields (s : State) :
    (evr s).getLsbD 20 = s.evValid ∧ (evr s).extractLsb' 17 3 = kindCode s.evKind ∧
    (evr s).extractLsb' 9 8 = s.evRaw ∧ (evr s).getLsbD 8 = s.evAsciiV ∧
    (evr s).extractLsb' 0 8 = s.evAscii := by
  unfold evr
  refine ⟨?evValid, ?evKind, ?evRaw, ?evAsciiV, BitVec.extractLsb'_append_eq_right⟩
  case evValid =>
    iterate 4 rw [BitVec.getLsbD_append, if_neg (by decide)]
    exact BitVec.getLsbD_ofBool _ _
  case evKind =>
    iterate 3 rw [BitVec.extractLsb'_append_eq_of_le (by decide)]
    exact BitVec.extractLsb'_append_eq_right
  case evRaw =>
    iterate 2 rw [BitVec.extractLsb'_append_eq_of_le (by decide)]
    exact BitVec.extractLsb'_append_eq_right
  case evAsciiV =>
    rw [BitVec.getLsbD_append, if_neg (by decide), BitVec.getLsbD_append, if_pos (by decide)]
    exact BitVec.getLsbD_ofBool _ _

theorem evr_resetRegisters (s : State) : evr (resetRegisters s) = 0 := by
  simp only [evr, resetRegisters_evValid, resetRegisters_evKind, resetRegisters_evRaw,
    resetRegisters_evAsciiV, resetRegisters_evAscii]
  decide

/-- Settles O34: the fields, the zero word after RST, and the six codes as they stand. -/
theorem evrPacksTheEventRegister : Obligations.EvrPacksTheEventRegister := by
  refine ⟨evr_fields, fun s t h => ?_, rfl, rfl, rfl, rfl, rfl, rfl⟩
  rw [exec_eq_after] at h
  cases h
  exact evr_resetRegisters s

end Sys2Proof.Machine

/-! PROOFS. The ROM's read primitives: refusal of a malformed ROM, the two lookups, row reads and the index
widths (20_memory.md R51-R61, 00_scope.md R9). -/

namespace Sys2Proof.Machine

/-- Settles O11: no arm of `exec` refuses, so only the ROM check does, and it is R51. -/
theorem malformedRomsAreRefused : Obligations.MalformedRomsAreRefused := by
  intro s
  rw [← config_wf_iff]
  cases hwf : s.cfg.wf with
  | false => simp [step, hwf]
  | true => simp [step_of_wf hwf, exec_eq_after]

/-- 20_memory.md R54 and R55 for either column: no earlier row matches, and a miss is `N`. -/
theorem lookupCol_eq_iff (col : Row → Option Byte) (rom : Rom) (b : Byte) (i : Nat) :
    lookupCol col rom b = i ↔
      ((∃ r, rom[i]? = some r ∧ col r = some b) ∧
        ∀ j r, j < i → rom[j]? = some r → col r ≠ some b) ∨
      (i = rom.length ∧ ∀ r ∈ rom, col r ≠ some b) := by
  constructor
  · rintro rfl
    rcases Nat.lt_or_eq_of_le (lookupCol_le col rom b) with hlt | hmiss
    · exact .inl ⟨lookupCol_hit hlt, fun j r => lookupCol_before⟩
    · exact .inr ⟨hmiss, lookupCol_miss.mp hmiss⟩
  · rintro (⟨⟨r, hr, hc⟩, hbefore⟩ | ⟨rfl, hnone⟩)
    · rcases Nat.lt_trichotomy (lookupCol col rom b) i with hlt | heq | hgt
      · obtain ⟨hi, -⟩ := List.getElem?_eq_some_iff.mp hr
        obtain ⟨r', hr', hc'⟩ := lookupCol_hit (hlt.trans hi)
        exact absurd hc' (hbefore _ r' hlt hr')
      · exact heq
      · exact absurd hc (lookupCol_before hgt hr)
    · exact lookupCol_miss.mpr hnone

/-- Settles O25: `LookupSB` is the lookup in the `sb` column. -/
theorem lookupSBIsTheLeastMatchElseN : Obligations.LookupSBIsTheLeastMatchElseN :=
  lookupCol_eq_iff Row.sb

/-- Settles O26: `LookupEXT` is the lookup in the `ext` column. -/
theorem lookupEXTIsTheLeastMatchElseN : Obligations.LookupEXTIsTheLeastMatchElseN :=
  lookupCol_eq_iff Row.ext

theorem isAsciiRow_row {rom : Rom} {i : Nat} {r : Row} (h : rom[i]? = some r) :
    isAsciiRow rom i = true ↔ r.ascii ≠ none := by
  rw [isAsciiRow, asciiOf_row h, Option.isSome_iff_ne_none]

/-- No index from `N` on is a row. -/
theorem isAsciiRow_outside {rom : Rom} {i : Nat} (h : rom.length ≤ i) :
    isAsciiRow rom i = false := by
  simp [isAsciiRow, asciiOf, romRow, h]

theorem labelAt_outside {rom : Rom} {i : Nat} (h : rom.length ≤ i) : labelAt rom i = [] := by
  simp [labelAt, romRow, h]

/-- Settles O27: each index is of a row or outside the table, and a position is inside the row's label or
past its end. -/
theorem rowReadsAreTotal : Obligations.RowReadsAreTotal := by
  intro rom i
  refine ⟨?ascii, ?row, ?outside⟩
  case ascii =>
    cases hr : rom[i]? with
    | none => simp [isAsciiRow_outside (List.getElem?_eq_none_iff.mp hr)]
    | some r => simp [isAsciiRow_row hr]
  case row =>
    intro r hr
    simp only [labelLen, labelChar, labelAt_row hr, List.getD_eq_getElem?_getD]
    refine ⟨trivial, fun p c hc => ?_, fun p hp => ?_⟩
    · simp [hc]
    · simp [hp]
  case outside =>
    intro hi
    simp [labelLen, labelChar, labelAt_outside hi]

/-- `leastWidth n` is the least width of a word that holds `n`. -/
theorem leastWidth_le_iff {n w : Nat} : leastWidth n ≤ w ↔ n < 2 ^ w := by
  unfold leastWidth
  split
  case isTrue hzero => simp [hzero]
  case isFalse hpos => rw [Nat.add_one_le_iff, Nat.log2_lt hpos]

theorem lt_two_pow_leastWidth (n : Nat) : n < 2 ^ leastWidth n :=
  leastWidth_le_iff.mp le_rfl

theorem lt_two_pow_leastWidth_of_le {m n : Nat} (h : m ≤ n) : m < 2 ^ leastWidth n :=
  h.trans_lt (lt_two_pow_leastWidth n)

theorem translateRow_le (rom : Rom) (k : EventKind) (raw : Byte) :
    translateRow rom k raw ≤ rom.length := by
  cases k with
  | asciiMake | binaryMake | longBinaryMake => exact lookupCol_le _ _ _
  | _ => exact le_rfl

theorem labelLen_le {c : Config} (ok : RomOk c) (i : Nat) : labelLen c.rom i ≤ c.labelMax := by
  cases hr : c.rom[i]? with
  | none => simp [labelLen, labelAt_outside (List.getElem?_eq_none_iff.mp hr)]
  | some r =>
    rw [labelLen, labelAt_row hr]
    exact ok.labelsFit i r hr

/-- A number that fits the port arrives unchanged. -/
theorem lblPosPort_of_lt {s : State} {x : Inputs} (h : x.lblPos < 2 ^ lenW s.cfg.labelMax) :
    (lblPosPort s x).toNat = x.lblPos := by
  rw [lblPosPort_toNat, Nat.mod_eq_of_lt h]

/-- Settles O28: a row index is at most `N`, a label length at most `LABEL_MAX`, and each width is the
least for its bound. -/
theorem indicesFitTheirWidths : Obligations.IndicesFitTheirWidths := by
  have row_le (s : State) : lblRow s ≤ s.cfg.rom.length := translateRow_le _ _ _
  have len_lt (s : State) (ok : RomOk s.cfg) : lblLen s < 2 ^ lenW s.cfg.labelMax :=
    lt_two_pow_leastWidth_of_le (labelLen_le ok _)
  refine ⟨fun s => ⟨row_le s, lt_two_pow_leastWidth_of_le (row_le s)⟩,
    fun rom w => leastWidth_le_iff.mpr, fun rom h => ?_, len_lt, fun m w => leastWidth_le_iff.mpr,
    fun s x => ⟨(lblPosPort s x).isLt, lblPosPort_of_lt⟩,
    fun s x ok hpos => lblPosPort_of_lt (hpos.trans_lt (len_lt s ok))⟩
  rw [idxW, h]
  decide

theorem literalTest_iff (i : Nat) : literalTest i = true ↔ i < 40 ∨ i = 68 ∨ 79 < i := by
  simp [literalTest, or_assoc]

/-- Settles O33: on a row, each policy is one side of the faithfulness premise; on the miss index 102 the
literal test alone answers yes (conflict C3). -/
theorem presenceRuleMatchesTheLiteralTest : Obligations.PresenceRuleMatchesTheLiteralTest := by
  intro rom
  refine ⟨⟨fun h i r hr => ?_, fun h i hi => ?_⟩, fun h => ⟨isAsciiRow_outside le_rfl, ?_⟩⟩
  · obtain ⟨hi, -⟩ := List.getElem?_eq_some_iff.mp hr
    rw [← isAsciiRow_row hr, ← literalTest_iff, h i hi]
  · have hr := List.getElem?_eq_getElem hi
    rw [Bool.eq_iff_iff, isAsciiRow_row hr, literalTest_iff, h i _ hr]
  · rw [h]
    decide

end Sys2Proof.Machine

/-! PROOFS. Several instances over one ROM (20_memory.md R72, 10_state.md R44, 60_exceptions.md R210). -/

namespace Sys2Proof.Machine

/-- What one of several decoders stepping can do, said once. -/
theorem stepInstance_next {k : Nat} {xs ys : List State} (h : stepInstance k xs = .next ys) :
    (xs[k]? = none ∧ ys = xs) ∨
      ∃ s t, xs[k]? = some s ∧ step s = .next t ∧ ys = xs.set k t := by
  cases hk : xs[k]? with
  | none =>
    simp only [stepInstance, hk, Host.Outcome.next.injEq] at h
    exact .inl ⟨rfl, h.symm⟩
  | some s =>
    cases hs : step s with
    | next t =>
      simp only [stepInstance, hk, hs, Host.Outcome.next.injEq] at h
      exact .inr ⟨s, t, rfl, hs, h.symm⟩
    | fault r => cases r
    | refused r => simp [stepInstance, hk, hs] at h

/-- Exchanging a state for one with the same environment keeps the environments apart. -/
theorem ownEnvironments_set {xs : List State} {k : Nat} {s t : State} (hk : xs[k]? = some s)
    (henv : t.env = s.env) (own : ownEnvironments xs) : ownEnvironments (xs.set k t) := by
  have henvs : (xs.set k t).map State.env = xs.map State.env := by
    obtain ⟨hlt, rfl⟩ := List.getElem?_eq_some_iff.mp hk
    rw [List.map_set, henv, ← List.map_set, List.set_getElem_self]
  unfold ownEnvironments at own ⊢
  rw [← List.pairwise_map (f := State.env) (R := (· ≠ ·))] at own ⊢
  rwa [henvs]

theorem shareRom_set {cfg : Config} {xs : List State} {k : Nat} {t : State} (ht : t.cfg = cfg)
    (share : shareRom cfg xs) : shareRom cfg (xs.set k t) := by
  intro u hu
  rcases List.mem_or_eq_of_mem_set hu with hmem | rfl
  · exact share u hmem
  · exact ht

theorem instancesAtReset_shareRom (cfg : Config) (n : Nat) :
    shareRom cfg (instancesAtReset cfg n) := by
  intro s hs
  obtain ⟨k, -, rfl⟩ := List.mem_map.mp hs
  rfl

theorem instancesAtReset_ownEnvironments (cfg : Config) (n : Nat) :
    ownEnvironments (instancesAtReset cfg n) :=
  List.pairwise_map.mpr List.nodup_range

/-- Settles O48: the list changes at `k` alone, and a step writes neither ROM nor environment. -/
theorem instancesAreIndependent : Obligations.InstancesAreIndependent := by
  refine ⟨fun k xs ys cfg share own h => ?_, fun cfg n => ⟨instancesAtReset_shareRom cfg n,
    instancesAtReset_ownEnvironments cfg n, by simp [instancesAtReset]⟩⟩
  rcases stepInstance_next h with ⟨hk, rfl⟩ | ⟨s, t, hk, hstep, rfl⟩
  · exact ⟨share, own, fun _ _ => rfl, by simp [hk]⟩
  · obtain ⟨hcfg, -, henv, -⟩ := stepKeepsParametersAndUsesOneSample s t hstep
    obtain ⟨hlt, -⟩ := List.getElem?_eq_some_iff.mp hk
    refine ⟨shareRom_set (hcfg.trans (share s (List.mem_of_getElem? hk))) share,
      ownEnvironments_set hk henv own, fun j hj => List.getElem?_set_ne hj.symm, fun s' hs' => ?_⟩
    obtain rfl : s = s' := Option.some.inj (hk.symm.trans hs')
    exact ⟨t, hstep, List.getElem?_set_self hlt⟩

end Sys2Proof.Machine

/-! PROOFS. The run of one sequence, and a stream of sequences under an eager consumer (30_encoding.md R84,
20_memory.md R60, R67). -/

namespace Sys2Proof.Machine

/-! ### Runs and events of consecutive parts -/

theorem run_add {m n : Nat} {s t : State} (h : runSteps m s = .next t) :
    runSteps (m + n) s = runSteps n t := by
  induction m generalizing s with
  | zero => cases h; rw [Nat.zero_add]
  | succ m ih =>
    obtain ⟨u, hstep, hrun⟩ := run_succ_inv h
    rw [Nat.succ_add, run_succ hstep, ih hrun]

theorem events_succ {n : Nat} {s t : State} (h : step s = .next t) :
    eventsDuring (n + 1) s =
      (if s.evValid then [] else (pendingEvent t).toList) ++ eventsDuring n t := by
  rw [eventsDuring, h]

theorem events_one {s t : State} (h : step s = .next t) :
    eventsDuring 1 s = if s.evValid then [] else (pendingEvent t).toList := by
  rw [events_succ h]
  exact List.append_nil _

theorem events_add {m n : Nat} {s t : State} (h : runSteps m s = .next t) :
    eventsDuring (m + n) s = eventsDuring m s ++ eventsDuring n t := by
  induction m generalizing s with
  | zero => cases h; rw [Nat.zero_add]; rfl
  | succ m ih =>
    obtain ⟨u, hstep, hrun⟩ := run_succ_inv h
    rw [Nat.succ_add, events_succ hstep, events_succ hstep, ih hrun, List.append_assoc]

theorem pendingEvent_free {s : State} (h : s.evValid = false) : pendingEvent s = none := by
  simp [pendingEvent, h]

/-! ### The bytes of a sequence -/

/-- The next value of `st` on 0xE0 or 0xF0 (40_decode_fsm.md R103, R104). -/
def afterPrefix (p : Byte) (q : DecoderState) : DecoderState :=
  if p = Config.pfxExt then afterE0 q else afterF0 q

/-- The value of `st` after 0xE0 and 0xF0 bytes `ps`. -/
def afterPrefixes : List Byte → DecoderState → DecoderState
  | [], q => q
  | p :: ps, q => afterPrefixes ps (afterPrefix p q)

/-- A state that neither 0xE0 nor 0xF0 leaves is kept by any number of them. -/
theorem afterPrefixes_fixed {q : DecoderState} (hE0 : afterE0 q = q) (hF0 : afterF0 q = q)
    (ps : List Byte) : afterPrefixes ps q = q := by
  induction ps with
  | nil => rfl
  | cons p ps ih => rw [afterPrefixes, afterPrefix, hE0, hF0, ite_self, ih]

/-- Of two or more 0xE0 and 0xF0 bytes, the first one decides: both break states absorb the others. -/
theorem afterPrefixes_two (p p' : Byte) (ps : List Byte) :
    afterPrefixes (p :: p' :: ps) .init =
      if p = Config.pfxExt then .longBreakCode else .breakCode := by
  by_cases h : p = Config.pfxExt
  · simpa [afterPrefixes, afterPrefix, h, afterE0, afterF0]
      using afterPrefixes_fixed (q := .longBreakCode) rfl rfl ps
  · simpa [afterPrefixes, afterPrefix, h, afterE0, afterF0]
      using afterPrefixes_fixed (q := .breakCode) rfl rfl ps

/-- The event of the grammar (30_encoding.md R84) is that of the state the bytes before `c` lead to. -/
theorem sequenceEvent_eq (rom : Rom) (ps : List Byte) (c : Byte) :
    sequenceEvent rom ps c =
      ⟨(classifyIn (afterPrefixes ps .init) rom c).1, c,
        (classifyIn (afterPrefixes ps .init) rom c).2⟩ := by
  match ps with
  | [] =>
    cases h : isAsciiRow rom (lookupSB rom c) <;>
      simp [sequenceEvent, afterPrefixes, classifyIn, classifyInit, h]
  | [p] =>
    by_cases h : p = Config.pfxExt <;>
      simp [sequenceEvent, afterPrefixes, afterPrefix, afterE0, afterF0, classifyIn, h]
  | p :: p' :: ps =>
    by_cases h : p = Config.pfxExt <;>
      simp [sequenceEvent, afterPrefixes_two, classifyIn, h]

theorem decodeByte_code {c : Byte} (h : isPrefixByte c = false) : decodeByte c = .code c := by
  simp only [isPrefixByte, Bool.or_eq_false_iff, beq_eq_false_iff_ne] at h
  simp [decodeByte, classOf, h]

/-- 0xE0 and 0xF0 move `st` and nothing else. -/
theorem after_prefix {p : Byte} {s : State} (h : isPrefixByte p = true)
    (free : s.evValid = false) : after (decodeByte p) s = setSt (afterPrefix p s.st) s := by
  simp only [isPrefixByte, Bool.or_eq_true, beq_iff_eq] at h
  rcases h with rfl | rfl <;> exact takeByte_free free

theorem after_code {c : Byte} {s : State} (h : isPrefixByte c = false) (free : s.evValid = false) :
    after (decodeByte c) s = terminal c s := by
  rw [decodeByte_code h]
  exact takeByte_free free

/-! ### One sequence -/

/-- The state after the bytes `ps`, each 0xE0 or 0xF0, `rest` being still to come. -/
def pastPrefixes (ps : List Byte) (rest : List Inputs) (s : State) : State :=
  { s with st := afterPrefixes ps s.st, inputs := rest }

/-- The state right after a sequence, its event pending. -/
def pastSequence (ps : List Byte) (c : Byte) (rest : List Inputs) (s : State) : State :=
  terminal c (pastPrefixes ps rest s)

@[simp] theorem pastSequence_evValid (ps : List Byte) (c : Byte) (rest : List Inputs) (s : State) :
    (pastSequence ps c rest s).evValid = true := rfl

section Sequence

variable {s : State} {ps : List Byte} {c : Byte} {rest : List Inputs}

/-- With nothing pending, an offered byte is accepted (40_decode_fsm.md R100). -/
theorem step_offer {b : Byte} (ok : RomOk s.cfg)
    (free : s.evValid = false) (h : s.inputs = offerByte b :: rest) :
    step s = .next (after (decodeByte b) { s with inputs := rest }) := by
  rw [step_listed ok h, free]
  rfl

theorem step_prefix {p : Byte} (ok : RomOk s.cfg) (free : s.evValid = false)
    (hp : isPrefixByte p = true) (h : s.inputs = offerByte p :: rest) :
    step s = .next (pastPrefixes [p] rest s) :=
  (step_offer ok free h).trans (congrArg _ (after_prefix hp free))

theorem step_code (ok : RomOk s.cfg) (free : s.evValid = false)
    (hc : isPrefixByte c = false) (h : s.inputs = offerByte c :: rest) :
    step s = .next (terminal c { s with inputs := rest }) :=
  (step_offer ok free h).trans (congrArg _ (after_code hc free))

/-- 0xE0 and 0xF0 complete no sequence, so they give no event. -/
theorem prefixes_run (ok : RomOk s.cfg) (free : s.evValid = false)
    (hps : ∀ p ∈ ps, isPrefixByte p = true) (h : s.inputs = offers ps ++ rest) :
    runSteps ps.length s = .next (pastPrefixes ps rest s) ∧ eventsDuring ps.length s = [] := by
  induction ps generalizing s with
  | nil => cases h; exact ⟨rfl, rfl⟩
  | cons p ps ih =>
    obtain ⟨hp, hps⟩ := List.forall_mem_cons.mp hps
    have hstep : step s = .next (pastPrefixes [p] (offers ps ++ rest) s) :=
      step_prefix ok free hp h
    obtain ⟨hrun, hevents⟩ := ih (s := pastPrefixes [p] (offers ps ++ rest) s) ok free hps rfl
    refine ⟨(run_succ hstep).trans hrun, ?_⟩
    rw [List.length_cons, events_succ hstep, hevents,
      pendingEvent_free (s := pastPrefixes _ _ _) free, Option.toList_none, ite_self]
    rfl

theorem pastSequence_pendingEvent (hst : s.st = .init) :
    pendingEvent (pastSequence ps c rest s) = some (sequenceEvent s.cfg.rom ps c) := by
  simp [pendingEvent, pastSequence, pastPrefixes, terminal, heldAscii, sequenceEvent_eq, hst]

theorem pastSequence_dc (hst : s.st = .init) :
    (pastSequence ps c rest s).dc = nextDc (sequenceEvent s.cfg.rom ps c).kind s.dc := by
  simp [pastSequence, pastPrefixes, terminal, sequenceEvent_eq, hst]

theorem pastSequence_readLabel (hst : s.st = .init) :
    readLabel (pastSequence ps c rest s) =
      labelAt s.cfg.rom (translateRow s.cfg.rom (sequenceEvent s.cfg.rom ps c).kind c) := by
  rw [readLabel_eq]
  simp [lblRow, pastSequence, pastPrefixes, terminal, sequenceEvent_eq, hst]

variable (ok : RomOk s.cfg) (free : s.evValid = false) (hst : s.st = .init)
  (hps : ∀ p ∈ ps, isPrefixByte p = true) (hc : isPrefixByte c = false)
include ok free hst hps hc

/-- From INIT, a sequence runs to its event, the only one on the way (30_encoding.md R84). -/
theorem sequence_run (h : s.inputs = offers (ps ++ [c]) ++ rest) :
    runSteps (ps.length + 1) s = .next (pastSequence ps c rest s) ∧
      eventsDuring (ps.length + 1) s = [sequenceEvent s.cfg.rom ps c] := by
  have hin : s.inputs = offers ps ++ offerByte c :: rest := by simpa [offers] using h
  obtain ⟨hrun, hevents⟩ := prefixes_run ok free hps hin
  have hstep : step (pastPrefixes ps (offerByte c :: rest) s) = .next (pastSequence ps c rest s) :=
    step_code (s := pastPrefixes _ _ _) ok free hc rfl
  refine ⟨by rw [run_add hrun, run_one, hstep], ?_⟩
  rw [events_add hrun, hevents, events_one hstep, pastSequence_pendingEvent hst]
  simp [pastPrefixes, free]

/-- What a consumer reads after a sequence, by the event the grammar gives it. -/
theorem sequence_outcome {e : KeyEvent} {label : List Byte}
    (h : s.inputs = offers (ps ++ [c]) ++ rest) (he : sequenceEvent s.cfg.rom ps c = e)
    (hlabel : labelAt s.cfg.rom (translateRow s.cfg.rom e.kind c) = label) :
    ∃ t, runSteps (ps.length + 1) s = .next t ∧ pendingEvent t = some e ∧ readLabel t = label ∧
      t.dc = nextDc e.kind s.dc := by
  subst he
  exact ⟨_, (sequence_run ok free hst hps hc h).1, pastSequence_pendingEvent hst,
    (pastSequence_readLabel hst).trans hlabel, pastSequence_dc hst⟩

/-- A sequence and its acknowledge give the sequence's event and lead back to INIT with nothing pending. -/
theorem eagerSamples_run (h : s.inputs = eagerSamples ps c ++ rest) :
    ∃ t, runSteps (eagerSamples ps c).length s = .next t ∧
      eventsDuring (eagerSamples ps c).length s = [sequenceEvent s.cfg.rom ps c] ∧
      t.cfg = s.cfg ∧ t.evValid = false ∧ t.st = .init ∧ t.inputs = rest := by
  have hin : s.inputs = offers (ps ++ [c]) ++ (encode .ack :: rest) := by
    simpa [eagerSamples, encode] using h
  obtain ⟨hrun, hevents⟩ := sequence_run ok free hst hps hc hin
  have hack : step (pastSequence ps c (encode .ack :: rest) s) =
      .next (dropEvent (pastSequence ps c rest s)) :=
    step_listed (s := pastSequence _ _ _ _) ok rfl
  have hlen : (eagerSamples ps c).length = ps.length + 1 + 1 := by simp [eagerSamples, offers]
  refine ⟨dropEvent (pastSequence ps c rest s), ?_, ?_, rfl, rfl, rfl, rfl⟩
  · rw [hlen, run_add hrun, run_one, hack]
  · rw [hlen, events_add hrun, hevents, events_one hack]
    simp

end Sequence

/-- Settles O43, by induction on the stream: each sequence with its acknowledge leads back to where the
stream began. -/
theorem eventsComeInTheOrderOfTheirTerminalBytes :
    Obligations.EventsComeInTheOrderOfTheirTerminalBytes := by
  intro qs
  induction qs with
  | nil => intros; rfl
  | cons q qs ih =>
    intro s rest ok free hst hqs h
    obtain ⟨⟨hps, hc⟩, hqs⟩ := List.forall_mem_cons.mp hqs
    rw [List.flatMap_cons, List.append_assoc] at h
    obtain ⟨t, hrun, hevents, hcfg, htfree, htst, htin⟩ :=
      eagerSamples_run ok free hst hps hc h
    rw [List.flatMap_cons, List.length_append, events_add hrun, hevents,
      ih t rest (hcfg ▸ ok) htfree htst hqs htin, hcfg]
    rfl

/-! ### The worked examples -/

/-- A column holds each code once, so a lookup reads the label of any row with the code. -/
theorem labelAt_lookupCol_of_row {col : Row → Option Byte} {rom : Rom} {b : Byte} {r : Row}
    (hd : ∀ (i j : Nat) (ri rj : Row), rom[i]? = some ri → rom[j]? = some rj →
      col ri = some b → col rj = some b → i = j)
    (hr : r ∈ rom) (hc : col r = some b) : labelAt rom (lookupCol col rom b) = r.label := by
  obtain ⟨i, hi⟩ := List.getElem?_of_mem hr
  rw [lookupCol_of_row hd hi hc, labelAt_row hi]

/-- A sequence of one byte whose row carries an ascii value is an AsciiMake. -/
theorem sequenceEvent_make_of_row {c : Config} (ok : RomOk c) {b a : Byte} {r : Row}
    (hr : r ∈ c.rom) (hb : r.sb = some b) (ha : r.ascii = some a) :
    sequenceEvent c.rom [] b = ⟨.asciiMake, b, some a⟩ := by
  have hascii : asciiOf c.rom (lookupSB c.rom b) = some a :=
    (asciiOf_lookupSB_of_row ok hr hb).trans ha
  simp [sequenceEvent, isAsciiRow, hascii]

/-- Settles O32: each example is one sequence of the grammar, its label that of the row R60 requires, or
none for the two breaks. -/
theorem sourceExamplesHold : Obligations.SourceExamplesHold := by
  intro s rest ok src free hst
  obtain ⟨rA, hA, hAlabel, hAsb, hAascii⟩ := src.rowA
  obtain ⟨rAlt, hAlt, hAltLabel, hAltExt⟩ := src.rowRAlt
  refine ⟨fun h => ?_, fun h => ?_, fun h => ?_, fun h => ?_⟩
  · refine sequence_outcome (ps := []) (c := 0x1C) ok free hst (by decide) (by decide) h
      (sequenceEvent_make_of_row ok hA hAsb hAascii) ?_
    rw [← hAlabel]
    exact labelAt_lookupCol_of_row (fun i j => ok.sbDistinct i j 0x1C) hA hAsb
  · exact sequence_outcome (ps := [0xF0]) (c := 0x1C) ok free hst (by decide) (by decide) h
      rfl (labelAt_miss _)
  · refine sequence_outcome (ps := [0xE0]) (c := 0x11) ok free hst (by decide) (by decide) h rfl ?_
    rw [← hAltLabel]
    exact labelAt_lookupCol_of_row (fun i j => ok.extDistinct i j 0x11) hAlt hAltExt
  · exact sequence_outcome (ps := [0xE0, 0xF0]) (c := 0x11) ok free hst (by decide) (by decide) h
      rfl (labelAt_miss _)

end Sys2Proof.Machine

/-! PROOFS. The decoder against the encoder, and the priority of the ports (30_encoding.md R81, R83,
R89; 42_control.md R184, R185). -/

namespace Sys2Proof.Machine

/-! ### Encoding and decoding back -/

theorem code_wf_iff (b : Byte) : (Instr.code b).wf = true ↔ isPrefixByte b = false := by
  simp [Instr.wf, isPrefixByte]

/-- With nothing pending, the sample of a well-formed instruction asks for it. -/
theorem decode_encode {i : Instr} (h : i.wf = true) : decode false (encode i) = i := by
  cases i with
  | code b => exact decodeByte_code ((code_wf_iff b).mp h)
  | prefixE0 | prefixF0 | rst | clr | ack | idle => rfl

/-- The sample of a control action asks for it whether or not an event is pending. -/
theorem decode_encode_control {v : Bool} {i : Instr} (h : encodeByte i = none) :
    decode v (encode i) = i := by
  cases i with
  | prefixE0 | prefixF0 | code => cases h
  | rst | clr | ack | idle => rfl

/-- While an event is pending, no sample asks for a byte instruction (40_decode_fsm.md R100). -/
theorem encodeByte_decode_pending (x : Inputs) : encodeByte (decode true x) = none := by
  unfold decode
  split_ifs with _ _ hbyte
  · rfl
  · rfl
  · simp at hbyte
  · rfl
  · rfl

theorem decode_encode_decode (v : Bool) (x : Inputs) :
    decode v (encode (decode v x)) = decode v x := by
  cases v with
  | false => exact decode_encode (decode_wf false x)
  | true => exact decode_encode_control (encodeByte_decode_pending x)

/-- Settles O3: on well-formed instructions `decode false` undoes `encode`, so `encode` is injective
there; what any sample decodes to is well-formed. -/
theorem decodeAndEncodeAgree : Obligations.DecodeAndEncodeAgree := by
  refine ⟨fun i hi => ⟨decode_encode hi, decode_encode_control⟩,
    fun v x => ⟨decode_wf v x, decode_encode_decode v x⟩, fun i j hi hj h => ?_⟩
  rw [← decode_encode hi, h, decode_encode hj]

/-! ### The priority of the ports -/

theorem decode_rst {v : Bool} {x : Inputs} (hrst : x.rst = true) : decode v x = .rst := by
  simp [decode, hrst]

theorem decode_clr {v : Bool} {x : Inputs} (hrst : x.rst = false) (hclr : x.clr = true) :
    decode v x = .clr := by simp [decode, hrst, hclr]

section NoControl

variable {x : Inputs} (hrst : x.rst = false) (hclr : x.clr = false)
include hrst hclr

theorem decode_pending_ack (hack : x.evAck = true) : decode true x = .ack := by
  simp [decode, hrst, hclr, hack]

theorem decode_free_byte (hbyte : x.inValid = true) : decode false x = decodeByte x.inByte := by
  simp [decode, hrst, hclr, hbyte]

theorem decode_free_idle (hbyte : x.inValid = false) (hack : x.evAck = false) :
    decode false x = .idle := by
  simp [decode, hrst, hclr, hbyte, hack]

end NoControl

/-- Settles O4: one lemma for each level of the priority order. -/
theorem samplesAskForInstructionsInPriorityOrder :
    Obligations.SamplesAskForInstructionsInPriorityOrder := by
  intro v x
  refine ⟨decode_rst, decode_clr, ?_, ?_, ?_, ?_⟩
  · rintro hrst hclr rfl hack
    exact decode_pending_ack hrst hclr hack
  · rintro hrst hclr rfl hack
    exact decode_pending_idle hrst hclr hack
  · rintro hrst hclr rfl hbyte
    exact decode_free_byte hrst hclr hbyte
  · rintro hrst hclr rfl hbyte hack
    exact decode_free_idle hrst hclr hbyte hack

/-! ### The words of the spec -/

/-- Settles O1, by running the decoder on the words. -/
theorem specWordsDecodeToTheirInstructions : Obligations.SpecWordsDecodeToTheirInstructions := by
  unfold Obligations.SpecWordsDecodeToTheirInstructions
  decide

end Sys2Proof.Machine

/-! PROOFS. The mask and match table against the byte classes (30_encoding.md R81, R82). Every row's
mask keeps the high bits of a byte, so the row matches a block of consecutive bytes. -/

namespace Sys2Proof.Machine

/-! ### Rows and classes -/

/-- A row for PREFIX_E0 or PREFIX_F0 matches the one byte of its class. -/
theorem coverTable_prefix_rows : ∀ r ∈ coverTable, r.cls ≠ .code →
    r.mask = BitVec.allOnes 8 ∧ classOf r.pattern = r.cls := by
  decide

theorem coverTable_code_rows : ∀ r ∈ coverTable, r.cls = .code →
    r.covers Config.pfxExt = false ∧ r.covers Config.pfxBrk = false := by
  decide

theorem classOf_of_covers {r : CoverRow} (hr : r ∈ coverTable) {b : Byte}
    (h : r.covers b = true) : classOf b = r.cls := by
  by_cases hcls : r.cls = .code
  · obtain ⟨hE0, hF0⟩ := coverTable_code_rows r hr hcls
    have hbE0 : b ≠ Config.pfxExt := fun hb => by simp [← hb, h] at hE0
    have hbF0 : b ≠ Config.pfxBrk := fun hb => by simp [← hb, h] at hF0
    rw [classOf, if_neg hbE0, if_neg hbF0, hcls]
  · obtain ⟨hmask, hpattern⟩ := coverTable_prefix_rows r hr hcls
    rw [CoverRow.covers, hmask, BitVec.and_allOnes, beq_iff_eq] at h
    rw [h, hpattern]

/-! ### Every byte has a row -/

/-- A row whose mask keeps the bits from `k` up matches the `2 ^ k` bytes from its pattern on. -/
theorem covers_of_mem_block {r : CoverRow} {b : Byte} {k : Nat}
    (hmask : r.mask = BitVec.allOnes 8 <<< k) (haligned : 2 ^ k ∣ r.pattern.toNat)
    (hlo : r.pattern.toNat ≤ b.toNat) (hhi : b.toNat < r.pattern.toNat + 2 ^ k) :
    r.covers b = true := by
  obtain ⟨m, hm⟩ := haligned
  have hdiv : b.toNat / 2 ^ k = m :=
    Nat.div_eq_of_lt_le (by rwa [Nat.mul_comm, ← hm]) (by rwa [Nat.succ_mul, Nat.mul_comm, ← hm])
  rw [CoverRow.covers, beq_iff_eq, hmask, ← BitVec.shiftLeft_ushiftRight]
  apply BitVec.eq_of_toNat_eq
  rw [BitVec.toNat_shiftLeft, BitVec.toNat_ushiftRight, Nat.shiftRight_eq_div_pow, hdiv,
    Nat.shiftLeft_eq, Nat.mul_comm, ← hm, Nat.mod_eq_of_lt r.pattern.isLt]

theorem coverTable_blocks : ∀ r ∈ coverTable, ∃ k < 8, r.mask = BitVec.allOnes 8 <<< k ∧
    2 ^ k ∣ r.pattern.toNat ∧ 2 ^ k = 256 - r.mask.toNat := by
  decide

/-- The blocks of the rows leave no byte out. -/
theorem exists_covers (b : Byte) : ∃ r ∈ coverTable, r.covers b = true := by
  have hblock : ∃ r ∈ coverTable, r.pattern.toNat ≤ b.toNat ∧
      b.toNat < r.pattern.toNat + (256 - r.mask.toNat) := by
    simp only [coverTable, List.exists_mem_cons_iff, BitVec.reduceToNat]
    omega
  obtain ⟨r, hr, hlo, hhi⟩ := hblock
  obtain ⟨k, -, hmask, haligned, hsize⟩ := coverTable_blocks r hr
  exact ⟨r, hr, covers_of_mem_block hmask haligned hlo (hsize ▸ hhi)⟩

/-! ### No byte has two rows -/

/-- Two rows that want different values of the bits both look at match no common byte. -/
theorem not_covers_both {r q : CoverRow} (h : r.pattern &&& q.mask ≠ q.pattern &&& r.mask)
    (b : Byte) : ¬ (r.covers b = true ∧ q.covers b = true) := by
  rintro ⟨hr, hq⟩
  rw [CoverRow.covers, beq_iff_eq] at hr hq
  apply h
  rw [← hr, ← hq, BitVec.and_assoc, BitVec.and_comm r.mask, ← BitVec.and_assoc]

theorem coverTable_conflicts :
    coverTable.Pairwise fun r q => r.pattern &&& q.mask ≠ q.pattern &&& r.mask := by
  decide

/-- Settles O2: a row's bytes are all of its class, every byte has a row, and any two rows conflict
in a bit they both look at. -/
theorem coverTableSaysTheByteClasses : Obligations.CoverTableSaysTheByteClasses := by
  refine ⟨fun b => rfl, fun b c => ⟨?_, ?_⟩, coverTable_conflicts.imp not_covers_both⟩
  · rintro rfl
    obtain ⟨r, hr, hcovers⟩ := exists_covers b
    exact ⟨r, hr, (classOf_of_covers hr hcovers).symm, hcovers⟩
  · rintro ⟨r, hr, rfl, hcovers⟩
    exact classOf_of_covers hr hcovers

end Sys2Proof.Machine

/-! PROOFS. The codes of the decoder states and the event kinds (30_encoding.md R85-R87). -/

namespace Sys2Proof.Machine

theorem stOfCode_stCode (q : DecoderState) : stOfCode (stCode q) = q := by
  cases q <;> rfl

theorem kindOfCode_kindCode (k : EventKind) : kindOfCode (kindCode k) = some k := by
  cases k <;> rfl

/-- Settles O35: the code of each state and kind reads back as it, and each of the few code words is
checked. -/
theorem stateAndKindCodesAreFaithful : Obligations.StateAndKindCodesAreFaithful :=
  ⟨rfl, rfl, rfl, rfl, stOfCode_stCode, by decide, kindOfCode_kindCode, by decide⟩

end Sys2Proof.Machine

/-! PROOFS. The grammar of the sequences (30_encoding.md R84). -/

namespace Sys2Proof.Machine

/-- Settles O42: the run of a sequence ends right after it, its event pending. -/
theorem sequencesFollowTheGrammar : Obligations.SequencesFollowTheGrammar := by
  intro s ps c rest ok free hst hps hc h
  obtain ⟨hrun, hevents⟩ := sequence_run ok free hst hps hc h
  exact ⟨pastSequence ps c rest s, hrun, pastSequence_pendingEvent hst, rfl, pastSequence_dc hst,
    rfl, hevents⟩

end Sys2Proof.Machine

/-! PROOFS. Acceptance of a byte (40_decode_fsm.md R100) and the byte instructions (R103-R105, R107). -/

namespace Sys2Proof.Machine

/-! ### Acceptance -/

theorem accepts_iff_ports (s : State) (x : Inputs) :
    accepts s x = true ↔
      x.rst = false ∧ x.clr = false ∧ x.inValid = true ∧ s.evValid = false := by
  rw [accepts_iff, inReady]
  simp only [Bool.and_eq_true, Bool.not_eq_true']
  tauto

theorem decode_of_accepts {s : State} {x : Inputs} (h : accepts s x = true) :
    decode s.evValid x = decodeByte x.inByte := by
  obtain ⟨hrst, hclr, hbyte, free⟩ := (accepts_iff_ports s x).mp h
  rw [free, decode_free_byte hrst hclr hbyte]

/-- The decoder reaches a byte only where the byte is accepted. -/
theorem encodeByte_decode_of_not_accepts {s : State} {x : Inputs} (h : accepts s x = false) :
    encodeByte (decode s.evValid x) = none := by
  unfold decode
  split_ifs with hrst hclr hbyte
  · rfl
  · rfl
  · have hacc : accepts s x = true := by simpa [accepts, inReady, hrst, hclr] using hbyte
    simp [h] at hacc
  · rfl
  · rfl

/-- Settles O21: the byte is the third level of the decoder's priority order, and reached where it is
accepted. -/
theorem acceptanceIsOfferAndReady : Obligations.AcceptanceIsOfferAndReady :=
  fun s x => ⟨accepts_iff_ports s x, decode_of_accepts, encodeByte_decode_of_not_accepts⟩

theorem step_of_accepts {s : State} {x : Inputs} {rest : List Inputs} (ok : RomOk s.cfg)
    (h : s.inputs = x :: rest) (hacc : accepts s x = true) :
    step s = exec (decodeByte x.inByte) { s with inputs := rest } := by
  rw [step_of_wf_cons ((config_wf_iff _).mpr ok) h, decode_of_accepts hacc]

/-! ### A byte's instruction under the gate -/

/-- Whatever the class, a byte's instruction is its effect in the present state, under the gate. -/
theorem after_decodeByte (b : Byte) (s : State) :
    after (decodeByte b) s = takeByte (legalArm b) s := by
  unfold decodeByte legalArm
  cases classOf b with
  | prefixE0 | prefixF0 | code => rfl

/-- Settles O49: the gate keeps the state, and no sample asks for a byte instruction there. -/
theorem byteInstructionWaitsWhileAnEventIsPending :
    Obligations.ByteInstructionWaitsWhileAnEventIsPending := by
  refine ⟨fun s b pending => ?_, encodeByte_decode_pending⟩
  rw [exec_eq_after, after_decodeByte, takeByte_pending pending]

section Free

variable {s : State} (free : s.evValid = false) {q : DecoderState} (hst : s.st = q)
include free hst

theorem exec_prefixE0_free : exec .prefixE0 s = .next (setSt (afterE0 q) s) := by
  rw [exec_eq_after, after, takeByte_free free, hst]

theorem exec_prefixF0_free : exec .prefixF0 s = .next (setSt (afterF0 q) s) := by
  rw [exec_eq_after, after, takeByte_free free, hst]

theorem exec_code_free {b : Byte} {k : EventKind} {a : Option Byte}
    (h : classifyIn q s.cfg.rom b = (k, a)) :
    exec (.code b) s = .next (setSt .init (emit k b a s)) := by
  rw [exec_eq_after, after, takeByte_free free, terminal, hst, h]

end Free

/-- Settles O16: `afterE0` is the table of R103. -/
theorem prefixE0MovesTheState : Obligations.PrefixE0MovesTheState := by
  refine ⟨fun s free => ⟨exec_prefixE0_free free, exec_prefixE0_free free, exec_prefixE0_free free,
    exec_prefixE0_free free⟩, fun s x rest ok h hacc hb => ?_⟩
  rw [step_of_accepts ok h hacc, hb]
  rfl

/-- Settles O17: `afterF0` is the table of R104. -/
theorem prefixF0MovesTheState : Obligations.PrefixF0MovesTheState := by
  refine ⟨fun s free => ⟨exec_prefixF0_free free, exec_prefixF0_free free, exec_prefixF0_free free,
    exec_prefixF0_free free⟩, fun s x rest ok h hacc hb => ?_⟩
  rw [step_of_accepts ok h hacc, hb]
  rfl

/-! ### The terminal byte -/

theorem classifyInit_of_ascii {rom : Rom} {b a : Byte}
    (h : asciiOf rom (lookupSB rom b) = some a) : classifyInit rom b = (.asciiMake, some a) := by
  simp [classifyInit, isAsciiRow, h]

theorem classifyInit_of_no_ascii {rom : Rom} {b : Byte}
    (h : asciiOf rom (lookupSB rom b) = none) : classifyInit rom b = (.binaryMake, none) := by
  simp [classifyInit, isAsciiRow, h]

section Init

variable {s : State} (free : s.evValid = false) (hst : s.st = .init) {b : Byte}
include free hst

theorem exec_code_asciiMake {a : Byte}
    (h : asciiOf s.cfg.rom (lookupSB s.cfg.rom b) = some a) :
    exec (.code b) s = .next (setSt .init (emit .asciiMake b (some a) s)) :=
  exec_code_free free hst (classifyInit_of_ascii h)

theorem exec_code_binaryMake (h : asciiOf s.cfg.rom (lookupSB s.cfg.rom b) = none) :
    exec (.code b) s = .next (setSt .init (emit .binaryMake b none s)) :=
  exec_code_free free hst (classifyInit_of_no_ascii h)

end Init

theorem isPrefixByte_eq_false_iff (b : Byte) :
    isPrefixByte b = false ↔ b ≠ 0xE0 ∧ b ≠ 0xF0 := by
  simp [isPrefixByte, Config.pfxExt, Config.pfxBrk]

/-- Settles O18: in INIT the row the byte finds has an ascii value or none; in the other states
`classifyIn` is the table of R105. -/
theorem codeEmitsTheEventOfItsState : Obligations.CodeEmitsTheEventOfItsState := by
  refine ⟨fun s b free _ _ => ⟨fun hst hascii => ?_, fun hst hascii => ?_,
    fun hst => exec_code_free free hst rfl, fun hst => exec_code_free free hst rfl,
    fun hst => exec_code_free free hst rfl⟩, fun s x rest ok h hacc hE0 hF0 => ?_⟩
  · obtain ⟨a, ha⟩ := Option.isSome_iff_exists.mp hascii
    exact ⟨a, ha, exec_code_asciiMake free hst ha⟩
  · exact exec_code_binaryMake free hst (by simpa [isAsciiRow] using hascii)
  · rw [step_of_accepts ok h hacc, decodeByte_code ((isPrefixByte_eq_false_iff _).mpr ⟨hE0, hF0⟩)]

/-- Settles O19: on a well-formed ROM the lookup reads the one row with the byte, and a miss reads no
ascii value. -/
theorem codeInInitClassifiesByTheRom : Obligations.CodeInInitClassifiesByTheRom := by
  intro s b ok free hst _ _
  refine ⟨fun r a hr hb ha => ?_, fun r hr hb ha => ?_, fun hmiss => ?_⟩
  · exact exec_code_asciiMake free hst ((asciiOf_lookupSB_of_row ok hr hb).trans ha)
  · exact exec_code_binaryMake free hst ((asciiOf_lookupSB_of_row ok hr hb).trans ha)
  · have hidx : lookupSB s.cfg.rom b = s.cfg.rom.length := lookupCol_miss.mpr hmiss
    exact exec_code_binaryMake free hst (by rw [hidx, asciiOf_miss])

end Sys2Proof.Machine

/-! PROOFS. `Emit`, the end of a partial sequence and the defensive default arm (40_decode_fsm.md R101,
R106, R109). -/

namespace Sys2Proof.Machine

theorem exec_effect {i : Instr} {s t : State} (h : exec i s = .next t) : Effect s i t := by
  rw [exec_eq_after] at h
  cases h
  exact after_effect i s

/-! ### `Emit` -/

theorem countsInDc_iff (k : EventKind) :
    countsInDc k = true ↔ k = .break ∨ k = .longBreak ∨ k = .invalid := by
  cases k <;> decide

theorem nextDc_eq (k : EventKind) (dc : DiagWord) :
    nextDc k dc = if k = .break ∨ k = .longBreak ∨ k = .invalid then dc + 1 else dc := by
  simp only [nextDc, Config.hasDiag, Bool.true_and, countsInDc_iff]

/-- An event is put into the register by one `Emit` of a CODE byte. -/
theorem Effect.emit_of_evValid_set {s t : State} {i : Instr} (h : Effect s i t)
    (hs : s.evValid = false) (ht : t.evValid = true) :
    ∃ b k a, i = .code b ∧ t = setSt .init (emit k b a s) := by
  cases h with
  | complete b => exact ⟨b, _, _, rfl, rfl⟩
  | _ => simp [hs] at ht

/-- A pending event's fields and the counter are safe from every instruction but RST. -/
theorem Effect.keeps_pending_event {s t : State} {i : Instr} (h : Effect s i t)
    (pending : s.evValid = true) (hi : i ≠ .rst) :
    t.evKind = s.evKind ∧ t.evRaw = s.evRaw ∧ t.evAsciiV = s.evAsciiV ∧ t.evAscii = s.evAscii ∧
      t.dc = s.dc := by
  cases h with
  | reset => exact absurd rfl hi
  | advance _ free | complete _ free => simp [pending] at free
  | clear | consume | keep => exact ⟨rfl, rfl, rfl, rfl, rfl⟩

/-- Settles O22: the fields `emit` writes, then the two facts about what an instruction can do. -/
theorem emitLoadsTheEventRegister : Obligations.EmitLoadsTheEventRegister := by
  refine ⟨fun k r a s => ?_, fun i s t h => (exec_effect h).emit_of_evValid_set,
    fun i s t h => (exec_effect h).keeps_pending_event⟩
  rw [emit, nextDc_eq]
  cases a with
  | none => rfl
  | some v => rfl

/-! ### The end of a partial sequence -/

/-- A byte that moves `st` to other states than INIT ends no partial sequence. -/
theorem takeByte_setSt_ne_init {f : DecoderState → DecoderState} {s : State}
    (hf : ∀ q, f q ≠ .init) (hs : s.st ≠ .init) :
    (takeByte (fun s => setSt (f s.st) s) s).st ≠ .init := by
  cases hv : s.evValid with
  | false => rw [takeByte_free hv]; exact hf s.st
  | true => rw [takeByte_pending hv]; exact hs

theorem afterE0_ne_init (q : DecoderState) : afterE0 q ≠ .init := by
  cases q <;> decide

theorem afterF0_ne_init (q : DecoderState) : afterF0 q ≠ .init := by
  cases q <;> decide

/-- Only INIT reads the ROM, so only there an event has an ascii value. -/
theorem classifyIn_ascii_eq_none {q : DecoderState} (hq : q ≠ .init) (rom : Rom) (b : Byte) :
    (classifyIn q rom b).2 = none := by
  cases q with
  | init => exact absurd rfl hq
  | longCode | breakCode | longBreakCode => rfl

theorem terminal_pendingEvent (b : Byte) (s : State) :
    pendingEvent (terminal b s) =
      some ⟨(classifyIn s.st s.cfg.rom b).1, b, (classifyIn s.st s.cfg.rom b).2⟩ :=
  congrArg (fun a => some (KeyEvent.mk (classifyIn s.st s.cfg.rom b).1 b a)) (heldAscii _)

/-- Settles O23: 0xE0 and 0xF0 lead to other states than INIT, an acknowledge and an idle edge leave
`st`, and a CODE byte leaves INIT only by its event. -/
theorem noByteAbortsASequence : Obligations.NoByteAbortsASequence := by
  intro i s t hs h ht
  rw [exec_eq_after] at h
  cases h
  cases i with
  | rst => exact .inl rfl
  | clr => exact .inr (.inl rfl)
  | prefixE0 => exact absurd ht (takeByte_setSt_ne_init afterE0_ne_init hs)
  | prefixF0 => exact absurd ht (takeByte_setSt_ne_init afterF0_ne_init hs)
  | ack =>
    rw [after, apply_ite State.st, dropEvent_st, ite_self] at ht
    exact absurd ht hs
  | idle => exact absurd ht hs
  | code b =>
    cases hv : s.evValid with
    | true =>
      rw [after, takeByte_pending hv] at ht
      exact absurd ht hs
    | false =>
      refine .inr (.inr ⟨b, rfl, rfl, ?_⟩)
      rw [after, takeByte_free hv, terminal_pendingEvent, classifyIn_ascii_eq_none hs]

/-! ### The default arm -/

/-- The kinds the four states give to a terminal byte are not Invalid: it counts, and of those kinds only
the two breaks do. -/
theorem classifyIn_ne_invalid (q : DecoderState) (rom : Rom) (b : Byte) :
    (classifyIn q rom b).1 ≠ .invalid := by
  intro h
  rcases classifyIn_counts (congrArg countsInDc h) with rfl | rfl
  · cases h
  · cases h

theorem Effect.invalid_only_kept {s t : State} {i : Instr} (h : Effect s i t)
    (ht : t.evKind = .invalid) : s.evKind = .invalid := by
  cases h with
  | reset => cases ht
  | complete b => exact absurd ht (classifyIn_ne_invalid _ _ _)
  | clear | consume | advance | keep => exact ht

/-- Settles O24: the default arm where nothing is pending, the effect of the byte under the gate, and
the kinds of the four states. -/
theorem defaultArmEmitsInvalid : Obligations.DefaultArmEmitsInvalid := by
  refine ⟨fun s b free => takeByte_free free, fun s b => ?_,
    fun i s t h => (exec_effect h).invalid_only_kept⟩
  rw [exec_eq_after, after_decodeByte]
  rfl

end Sys2Proof.Machine

/-! PROOFS. The translation of the held event to a label, and the round trip of the ROM's rows
(41_translation.md R150-R152, R158, R159). -/

namespace Sys2Proof.Machine

/-! ### The label ports -/

/-- The kinds the counter counts are the kinds without a label (41_translation.md R150, R158). -/
theorem translateRow_of_counts {k : EventKind} (h : countsInDc k = true) (rom : Rom) (raw : Byte) :
    translateRow rom k raw = rom.length := by
  rcases (countsInDc_iff k).mp h with rfl | rfl | rfl
  · rfl
  · rfl
  · rfl

theorem labelLen_miss (rom : Rom) : labelLen rom rom.length = 0 := by
  rw [labelLen, labelAt_miss, List.length_nil]

/-- From the end of the label on, the port reads 0x00 (20_memory.md R58). -/
theorem labelChar_past_end {rom : Rom} {i p : Nat} (h : labelLen rom i ≤ p) :
    labelChar rom i p = 0x00 := List.getD_eq_default _ _ h

theorem lblChar_past_end {s : State} {p : Nat} (h : lblLen s ≤ p) : lblChar s p = 0x00 :=
  labelChar_past_end h

theorem translateRowOfCode_kindCode (rom : Rom) (k : EventKind) (raw : Byte) :
    translateRowOfCode rom (kindCode k) raw = translateRow rom k raw := by
  rw [translateRowOfCode, kindOfCode_kindCode]

/-- Settles O29: `translateRow` is the table of R150; a kind without a label reads the miss row, whose
label is empty, so every position is past its end. -/
theorem labelPortsTranslateTheHeldEvent : Obligations.LabelPortsTranslateTheHeldEvent := by
  refine ⟨fun s => ⟨fun hkind => ?sb, fun hkind => ?ext, fun hkind => ?noLabel, rfl, fun _ => rfl,
    fun _ => lblChar_past_end⟩,
    fun rom raw => ⟨rfl, rfl, fun k => translateRowOfCode_kindCode rom k raw⟩⟩
  case sb =>
    rcases hkind with h | h
    · rw [lblRow, h, translateRow]
    · rw [lblRow, h, translateRow]
  case ext => rw [lblRow, hkind, translateRow]
  case noLabel =>
    have hrow : lblRow s = s.cfg.rom.length :=
      translateRow_of_counts ((countsInDc_iff _).mpr hkind) _ _
    have hlen : lblLen s = 0 := by rw [lblLen, hrow, labelLen_miss]
    exact ⟨hrow, hlen, fun p => lblChar_past_end (hlen ▸ p.zero_le)⟩

/-! ### The rows of the ROM -/

/-- A sequence of one byte whose row carries no ascii value is a BinaryMake. -/
theorem sequenceEvent_binaryMake_of_row {c : Config} (ok : RomOk c) {b : Byte} {r : Row}
    (hr : r ∈ c.rom) (hb : r.sb = some b) (ha : r.ascii = none) :
    sequenceEvent c.rom [] b = ⟨.binaryMake, b, none⟩ := by
  have hascii : asciiOf c.rom (lookupSB c.rom b) = none :=
    (asciiOf_lookupSB_of_row ok hr hb).trans ha
  simp [sequenceEvent, isAsciiRow, hascii]

/-- A make of one byte, with or without an ascii value, is looked up in the `sb` column. -/
theorem translateRow_sequenceEvent_nil (rom : Rom) (b : Byte) :
    translateRow rom (sequenceEvent rom [] b).kind b = lookupSB rom b := by
  rw [sequenceEvent]
  split
  · rfl
  · rfl

/-- Settles O31: each code is one sequence of the grammar, of the row's kind, and its column holds the
code once, so the label read is the row's. -/
theorem romRowsRoundTrip : Obligations.RomRowsRoundTrip := by
  intro s r rest ok hr free hst
  refine ⟨fun k hk hc h => ?sb, fun x hx hc h => ?ext⟩
  case sb =>
    have hlabel : labelAt s.cfg.rom (lookupSB s.cfg.rom k) = r.label :=
      labelAt_lookupCol_of_row (fun i j => ok.sbDistinct i j k) hr hk
    obtain ⟨t, hrun, hevent, hread, -⟩ := sequence_outcome (ps := []) ok free hst (by simp) hc h rfl
      (by rw [translateRow_sequenceEvent_nil, hlabel])
    refine ⟨t, hrun, hevent.trans (congrArg some ?_), hread⟩
    cases ha : r.ascii with
    | some a => exact sequenceEvent_make_of_row ok hr hk ha
    | none => exact sequenceEvent_binaryMake_of_row ok hr hk ha
  case ext =>
    have hlabel : labelAt s.cfg.rom (lookupEXT s.cfg.rom x) = r.label :=
      labelAt_lookupCol_of_row (fun i j => ok.extDistinct i j x) hr hx
    obtain ⟨t, hrun, hevent, hread, -⟩ := sequence_outcome (ps := [Config.pfxExt]) ok free hst
      (by decide) hc h rfl hlabel
    exact ⟨t, hrun, hevent, hread⟩

end Sys2Proof.Machine

/-! PROOFS. The diagnostic counter: what it counts over a run, and that nothing reads it
(41_translation.md R156, R157; 60_exceptions.md R208). -/

namespace Sys2Proof.Machine

/-! ### The counter over a run -/

theorem countedEvents_append (es fs : List KeyEvent) :
    countedEvents (es ++ fs) = countedEvents es + countedEvents fs := List.countP_append

/-- The counter's increment on one event (41_translation.md R156) is the count of that event. -/
theorem nextDc_eq_add_countedEvents (e : KeyEvent) (dc : DiagWord) :
    nextDc e.kind dc = dc + BitVec.ofNat 32 (countedEvents [e]) := by
  cases h : countsInDc e.kind with
  | false => simp [nextDc, countedEvents, h]
  | true => simp [nextDc, countedEvents, Config.hasDiag, h]

/-- With nothing pending, an instruction other than RST moves the counter by the event it leaves
pending. -/
theorem Effect.dc_eq_add_pendingEvent {s t : State} {i : Instr} (h : Effect s i t)
    (free : s.evValid = false) (hi : i ≠ .rst) :
    t.dc = s.dc + BitVec.ofNat 32 (countedEvents (pendingEvent t).toList) := by
  have quiet {u : State} (hu : u.evValid = false) :
      u.dc = u.dc + BitVec.ofNat 32 (countedEvents (pendingEvent u).toList) := by
    rw [pendingEvent_free hu]
    exact (BitVec.add_zero _).symm
  cases h with
  | reset => exact absurd rfl hi
  | complete b =>
    rw [terminal_pendingEvent]
    exact nextDc_eq_add_countedEvents ⟨_, _, _⟩ s.dc
  | clear => exact quiet (u := dropEvent (setSt .init s)) rfl
  | consume => exact quiet (u := dropEvent s) rfl
  | advance q => exact quiet (u := setSt q s) free
  | keep => exact quiet free

theorem decodeByte_ne_rst (b : Byte) : decodeByte b ≠ .rst := by
  unfold decodeByte
  cases classOf b with
  | prefixE0 | prefixF0 | code => nofun

theorem decode_ne_rst {x : Inputs} (h : x.rst = false) (v : Bool) : decode v x ≠ .rst := by
  rw [decode, h, if_neg Bool.false_ne_true]
  split_ifs
  · nofun
  · exact decodeByte_ne_rst _
  · nofun
  · nofun

/-- An edge without `rst` moves the counter by the event it produces. -/
theorem step_dc {s t : State} (h : step s = .next t) (hrst : (sampled s).rst = false) :
    t.dc = s.dc + BitVec.ofNat 32 (countedEvents (eventsDuring 1 s)) := by
  rw [events_one h]
  obtain ⟨-, rfl⟩ := step_next_iff.mp h
  have heffect := after_effect (decode s.evValid (sampled s)) (pastSample s)
  have hi := decode_ne_rst hrst s.evValid
  cases hv : s.evValid with
  | false => simpa [hv] using heffect.dc_eq_add_pendingEvent (by simpa using hv) hi
  | true =>
    obtain ⟨-, -, -, -, hdc⟩ := heffect.keeps_pending_event (by simpa using hv) hi
    simpa [hv, countedEvents] using hdc

theorem step_inputs {s t : State} (h : step s = .next t) : t.inputs = s.inputs.tail := by
  obtain ⟨-, rfl⟩ := step_next_iff.mp h
  rw [after_inputs, pastSample_inputs]

theorem events_cons {n : Nat} {s t : State} (h : step s = .next t) :
    eventsDuring (n + 1) s = eventsDuring 1 s ++ eventsDuring n t := by
  rw [events_succ h, events_one h]

/-- Settles O44, by induction on the run: each edge adds the event it produces. -/
theorem counterCountsBreakEvents : Obligations.CounterCountsBreakEvents := by
  intro n
  induction n with
  | zero =>
    intro s t _ _ h
    cases h
    exact (BitVec.add_zero _).symm
  | succ n ih =>
    intro s t hrst hlen h
    obtain ⟨u, hstep, hrun⟩ := run_succ_inv h
    obtain ⟨x, rest, hs⟩ := List.exists_cons_of_length_pos (Nat.zero_lt_of_lt hlen)
    have hin : u.inputs = rest := by rw [step_inputs hstep, hs, List.tail_cons]
    rw [hs] at hrst hlen
    obtain ⟨hx, hrest⟩ := List.forall_mem_cons.mp hrst
    have hu := step_dc hstep (by rwa [sampled_cons hs])
    have ht := ih u t (hin ▸ hrest) (hin ▸ Nat.le_of_succ_le_succ hlen) hrun
    rw [ht, hu, events_cons (n := n) hstep, countedEvents_append, BitVec.ofNat_add, BitVec.add_assoc]

/-! ### Nothing reads the counter -/

/-- The state with another value of the counter. -/
def withDc (d : DiagWord) (s : State) : State := { s with dc := d }

/-- From states that differ in `dc` alone, `f` leads to states that differ in `dc` alone. -/
def IgnoresDc (f : State → State) : Prop :=
  ∀ (s : State) (d : DiagWord), ∃ d', f (withDc d s) = withDc d' (f s)

theorem takeByte_ignoresDc {f : State → State} (hf : IgnoresDc f) : IgnoresDc (takeByte f) := by
  intro s d
  cases hv : s.evValid with
  | false =>
    rw [takeByte_free hv, takeByte_free (s := withDc d s) hv]
    exact hf s d
  | true =>
    rw [takeByte_pending hv, takeByte_pending (s := withDc d s) hv]
    exact ⟨d, rfl⟩

/-- `Emit` writes the counter from the counter alone. -/
theorem terminal_ignoresDc (b : Byte) : IgnoresDc (terminal b) :=
  fun s d => ⟨nextDc (classifyIn s.st s.cfg.rom b).1 d, rfl⟩

theorem after_ignoresDc (i : Instr) : IgnoresDc (after i) := by
  cases i with
  | prefixE0 | prefixF0 => exact takeByte_ignoresDc fun _ d => ⟨d, rfl⟩
  | code b => exact takeByte_ignoresDc (terminal_ignoresDc b)
  | rst => exact fun _ _ => ⟨0, rfl⟩
  | clr | idle => exact fun _ d => ⟨d, rfl⟩
  | ack => exact fun s d => ⟨d, (apply_ite (withDc d) (s.evValid = true) (dropEvent s) s).symm⟩

theorem sampled_withDc (d : DiagWord) (s : State) : sampled (withDc d s) = sampled s := rfl

theorem pastSample_withDc (d : DiagWord) (s : State) :
    pastSample (withDc d s) = withDc d (pastSample s) := by
  cases h : s.inputs with
  | nil => rw [pastSample_nil h, pastSample_nil (s := withDc d s) h]; rfl
  | cons x rest => rw [pastSample_cons h, pastSample_cons (s := withDc d s) h]; rfl

/-- Settles O45: neither the ROM check nor the sample nor the decoder reads `dc`, and every instruction
ignores it. -/
theorem counterChangesNothingElse : Obligations.CounterChangesNothingElse := by
  intro s t d h
  obtain ⟨hwf, rfl⟩ := step_next_iff.mp h
  obtain ⟨d', hd'⟩ := after_ignoresDc (decode s.evValid (sampled s)) (pastSample s) d
  rw [← pastSample_withDc, ← sampled_withDc d] at hd'
  exact ⟨d', step_next_iff.mpr ⟨hwf, hd'.symm⟩⟩

end Sys2Proof.Machine

/-! PROOFS. The control actions and the complete step (42_control.md R180-R184; 10_state.md R41). -/

namespace Sys2Proof.Machine

/-! ### Edges that accept no byte -/

theorem accepts_eq_false_iff (s : State) (x : Inputs) :
    accepts s x = false ↔
      x.rst = true ∨ x.clr = true ∨ x.inValid = false ∨ s.evValid = true := by
  rw [← Bool.not_eq_true, accepts_iff_ports]
  simp only [← Bool.not_eq_true]
  tauto

theorem accepts_pending {s : State} (pending : s.evValid = true) (x : Inputs) :
    accepts s x = false :=
  (accepts_eq_false_iff s x).mpr (.inr (.inr (.inr pending)))

theorem accepts_no_offer (s : State) {x : Inputs} (hbyte : x.inValid = false) :
    accepts s x = false :=
  (accepts_eq_false_iff s x).mpr (.inr (.inr (.inl hbyte)))

/-- Below `rst` and `clr`, a sample whose byte is not accepted asks for the acknowledge or for nothing. -/
theorem decode_of_not_accepts {s : State} {x : Inputs} (hrst : x.rst = false) (hclr : x.clr = false)
    (hacc : accepts s x = false) :
    decode s.evValid x = if x.evAck then .ack else .idle := by
  have hbyte : (x.inValid && !s.evValid) = false := by
    simpa [accepts, inReady, hrst, hclr] using hacc
  simp [decode, hrst, hclr, hbyte]

/-! ### Acknowledge -/

theorem exec_ack_pending {s : State} (pending : s.evValid = true) :
    exec .ack s = .next (dropEvent s) := by
  rw [exec_eq_after, after, if_pos pending]

theorem exec_ack_free {s : State} (free : s.evValid = false) : exec .ack s = .next s := by
  rw [exec_eq_after, after, free, if_neg Bool.false_ne_true]

/-! ### The instruction of an edge, by its sample -/

section Edge

variable {s : State} {x : Inputs} {rest : List Inputs} (ok : RomOk s.cfg) (h : s.inputs = x :: rest)
include ok h

theorem step_of_decode {i : Instr} (hi : decode s.evValid x = i) :
    step s = exec i { s with inputs := rest } := by
  rw [step_of_wf_cons ((config_wf_iff _).mpr ok) h, hi]

theorem step_rst (hrst : x.rst = true) : step s = exec .rst { s with inputs := rest } :=
  step_of_decode ok h (decode_rst hrst)

theorem step_clr (hrst : x.rst = false) (hclr : x.clr = true) :
    step s = exec .clr { s with inputs := rest } :=
  step_of_decode ok h (decode_clr hrst hclr)

theorem step_ack (hrst : x.rst = false) (hclr : x.clr = false) (hacc : accepts s x = false)
    (hack : x.evAck = true) : step s = exec .ack { s with inputs := rest } :=
  step_of_decode ok h (by rw [decode_of_not_accepts hrst hclr hacc, if_pos hack])

/-- No byte is accepted and no event is taken. With `ev_ack` the edge is an ACK without effect (log
entry 6), else an IDLE. -/
theorem step_quiet (hrst : x.rst = false) (hclr : x.clr = false) (hacc : accepts s x = false)
    (htake : x.evAck = false ∨ s.evValid = false) : step s = .next { s with inputs := rest } := by
  cases hack : x.evAck with
  | true =>
    have free : s.evValid = false := htake.resolve_left (by simp [hack])
    rw [step_ack ok h hrst hclr hacc hack, exec_ack_free (s := { s with inputs := rest }) free]
  | false =>
    have hidle : decode s.evValid x = .idle := by
      rw [decode_of_not_accepts hrst hclr hacc, hack, if_neg Bool.false_ne_true]
    exact step_of_decode ok h hidle

end Edge

/-- Settles O5: RST writes every register, and `rst` is the first level of the decoder's priority. -/
theorem rstWritesTheResetState : Obligations.RstWritesTheResetState :=
  ⟨exec_eq_after .rst, fun s x _ ok h hrst =>
    ⟨(accepts_eq_false_iff s x).mpr (.inl hrst), step_rst ok h hrst⟩⟩

/-- Settles O13: CLR writes two registers, and `clr` is the second level of the decoder's priority. -/
theorem clrDiscardsSequenceAndEvent : Obligations.ClrDiscardsSequenceAndEvent :=
  ⟨exec_eq_after .clr, fun s x _ ok h hrst hclr =>
    ⟨(accepts_eq_false_iff s x).mpr (.inr (.inl hclr)), step_clr ok h hrst hclr⟩⟩

/-- Settles O14: the two cases of ACK, and its level of the decoder's priority. -/
theorem ackConsumesThePendingEvent : Obligations.AckConsumesThePendingEvent :=
  ⟨fun _ => exec_ack_pending, fun _ => exec_ack_free, fun _ x _ ok h hrst hclr hack =>
    ⟨fun pending => accepts_pending pending x, fun hacc => step_ack ok h hrst hclr hacc hack⟩⟩

/-- Settles O15: a byte that is not offered, or that waits, leaves a quiet edge. -/
theorem idleChangesNothing : Obligations.IdleChangesNothing := by
  refine ⟨exec_eq_after .idle, fun s x rest ok h hrst hclr hbyte htake => ?_⟩
  exact step_quiet ok h hrst hclr ((accepts_eq_false_iff s x).mpr (.inr (.inr hbyte))) htake

/-- Settles O9: one edge lemma for each leaf of R184's case chain. -/
theorem completeStepFollowsThePriorityOrder : Obligations.CompleteStepFollowsThePriorityOrder := by
  intro s x rest ok h
  split
  case isTrue hrst => exact step_rst ok h hrst
  case isFalse hrst =>
    replace hrst := eq_false_of_ne_true hrst
    split
    case isTrue hclr => exact step_clr ok h hrst hclr
    case isFalse hclr =>
      replace hclr := eq_false_of_ne_true hclr
      split_ifs with pending hack hbyte
      · rw [step_ack ok h hrst hclr (accepts_pending pending x) hack]
        exact exec_ack_pending (s := { s with inputs := rest }) pending
      · have hidle := eq_false_of_ne_true hack
        exact step_quiet ok h hrst hclr (accepts_pending pending x) (.inl hidle)
      · have free := eq_false_of_ne_true pending
        rw [step_of_accepts ok h ((accepts_iff_ports s x).mpr ⟨hrst, hclr, hbyte, free⟩), decodeByte]
        cases classOf x.inByte with
        | prefixE0 | prefixF0 | code => rfl
      · have free := eq_false_of_ne_true pending
        have hnone := eq_false_of_ne_true hbyte
        exact step_quiet ok h hrst hclr (accepts_no_offer s hnone) (.inr free)

end Sys2Proof.Machine

/-! PROOFS. Idempotence of reset: what the events of a run depend on (42_control.md R186). -/

namespace Sys2Proof.Machine

/-- All that the events to come depend on: the ROM, the samples, `st` and the pending event. Two states
that agree in it may differ in the retained event fields and in `dc`. -/
structure SameOutlook (s t : State) : Prop where
  cfg : s.cfg = t.cfg
  inputs : s.inputs = t.inputs
  st : s.st = t.st
  event : pendingEvent s = pendingEvent t

theorem pendingEvent_isSome (s : State) : (pendingEvent s).isSome = s.evValid := by
  cases h : s.evValid with
  | false => rw [pendingEvent_free h]; rfl
  | true => rw [pendingEvent, if_pos h]; rfl

section Outlook

variable {s t : State} (h : SameOutlook s t)
include h

theorem SameOutlook.evValid : s.evValid = t.evValid := by
  rw [← pendingEvent_isSome, h.event, pendingEvent_isSome]

theorem SameOutlook.advance (f : DecoderState → DecoderState) :
    SameOutlook (setSt (f s.st) s) (setSt (f t.st) t) :=
  ⟨h.cfg, h.inputs, congrArg f h.st, h.event⟩

theorem SameOutlook.dropEvent : SameOutlook (dropEvent s) (dropEvent t) :=
  ⟨h.cfg, h.inputs, h.st, rfl⟩

theorem SameOutlook.resetRegisters : SameOutlook (resetRegisters s) (resetRegisters t) :=
  ⟨h.cfg, h.inputs, rfl, rfl⟩

theorem SameOutlook.withInputs (rest : List Inputs) :
    SameOutlook { s with inputs := rest } { t with inputs := rest } :=
  ⟨h.cfg, rfl, h.st, h.event⟩

/-- The event of a terminal byte is made from `st` and the ROM alone (40_decode_fsm.md R105). -/
theorem SameOutlook.terminal (b : Byte) : SameOutlook (terminal b s) (terminal b t) :=
  ⟨h.cfg, h.inputs, rfl, by rw [terminal_pendingEvent, terminal_pendingEvent, h.st, h.cfg]⟩

theorem SameOutlook.takeByte {f : State → State} (hf : SameOutlook (f s) (f t)) :
    SameOutlook (takeByte f s) (takeByte f t) := by
  cases ht : t.evValid with
  | false => rwa [takeByte_free ht, takeByte_free (h.evValid.trans ht)]
  | true => rwa [takeByte_pending ht, takeByte_pending (h.evValid.trans ht)]

theorem SameOutlook.after (i : Instr) : SameOutlook (after i s) (after i t) := by
  cases i with
  | prefixE0 => exact h.takeByte (f := fun u => setSt (afterE0 u.st) u) (h.advance afterE0)
  | prefixF0 => exact h.takeByte (f := fun u => setSt (afterF0 u.st) u) (h.advance afterF0)
  | code b => exact h.takeByte (h.terminal b)
  | rst => exact h.resetRegisters
  | clr => exact (h.advance fun _ => .init).dropEvent
  | ack =>
    simp only [Machine.after, h.evValid]
    split
    · exact h.dropEvent
    · exact h
  | idle => exact h

/-- One sample, one instruction: the decoder reads `ev_valid` and the ports alone. -/
theorem SameOutlook.step (ok : RomOk s.cfg) {x : Inputs} {rest : List Inputs}
    (hs : s.inputs = x :: rest) :
    ∃ s' t', step s = .next s' ∧ step t = .next t' ∧ SameOutlook s' t' := by
  have hdecode : decode t.evValid x = decode s.evValid x := by rw [h.evValid]
  refine ⟨_, _, step_listed ok hs, step_listed (h.cfg ▸ ok) (h.inputs ▸ hs), ?_⟩
  rw [hdecode]
  exact (h.withInputs rest).after _

end Outlook

/-- CLR and RST leave INIT with nothing pending, from any state. -/
theorem idle_after_clr_or_rst {i : Instr} {u s : State} (hi : i = .clr ∨ i = .rst)
    (h : exec i u = .next s) : s.st = .init ∧ pendingEvent s = none := by
  rw [exec_eq_after] at h
  obtain rfl | rfl := hi <;> cases h <;> exact ⟨rfl, rfl⟩

theorem events_refused {n : Nat} {s : State} {r : Refusal} (h : step s = .refused r) :
    eventsDuring n s = [] := by
  cases n with
  | zero => rfl
  | succ n => rw [eventsDuring, h]

/-- By induction on the run. On a ROM that is not well-formed no step runs from either state. -/
theorem SameOutlook.events {n : Nat} {s t : State} (h : SameOutlook s t)
    (hn : n ≤ s.inputs.length) : eventsDuring n s = eventsDuring n t := by
  induction n generalizing s t with
  | zero => rfl
  | succ n ih =>
    by_cases ok : RomOk s.cfg
    · obtain ⟨x, rest, hs⟩ := List.exists_cons_of_length_pos (Nat.zero_lt_of_lt hn)
      obtain ⟨s', t', hstep, hstep', hnext⟩ := h.step ok hs
      have hn' : n ≤ s'.inputs.length := by
        rw [step_inputs hstep, List.length_tail]
        omega
      rw [events_succ hstep, events_succ hstep', h.evValid, hnext.event, ih hnext hn']
    · rw [events_refused ((malformedRomsAreRefused s).mpr ok),
        events_refused ((malformedRomsAreRefused t).mpr (h.cfg ▸ ok))]

/-- Settles O46: the clear or the reset leaves both states INIT with nothing pending, so they have the
same outlook. -/
theorem sameEventsAfterClearOrReset : Obligations.SameEventsAfterClearOrReset := by
  intro u₁ u₂ s₁ s₂ i₁ i₂ n hi₁ hi₂ h₁ h₂ hcfg hinputs hn
  obtain ⟨hst₁, hnone₁⟩ := idle_after_clr_or_rst hi₁ h₁
  obtain ⟨hst₂, hnone₂⟩ := idle_after_clr_or_rst hi₂ h₂
  have same : SameOutlook s₁ s₂ :=
    ⟨hcfg, hinputs, hst₁.trans hst₂.symm, hnone₁.trans hnone₂.symm⟩
  exact same.events hn

end Sys2Proof.Machine

/-! PROOFS. No stop, and the anomaly classes as normal outcomes (60_exceptions.md R200, R201). -/

namespace Sys2Proof.Machine

/-- Settles O10: past the ROM check, `after` is the next state of a step as of an instruction. -/
theorem stepsNeverStopOnAWellFormedRom : Obligations.StepsNeverStopOnAWellFormedRom :=
  ⟨fun _ ok => ⟨_, step_next_iff.mpr ⟨(config_wf_iff _).mpr ok, rfl⟩⟩,
    fun i s => ⟨after i s, exec_eq_after i s⟩⟩

/-! ### An event without an ascii value and without a label -/

theorem emit_none_pendingEvent (k : EventKind) (b : Byte) (s : State) :
    pendingEvent (setSt .init (emit k b none s)) = some ⟨k, b, none⟩ := rfl

theorem lblLen_of_lblRow_miss {s : State} (h : lblRow s = s.cfg.rom.length) : lblLen s = 0 := by
  rw [lblLen, h, labelLen_miss]

/-- The state after a lookup miss: the kind is not counted and no row is the event's. -/
theorem emit_miss_outcome {k : EventKind} {b : Byte} {s : State} (hk : countsInDc k = false)
    (hrow : translateRow s.cfg.rom k b = s.cfg.rom.length) :
    let t := setSt .init (emit k b none s)
    pendingEvent t = some ⟨k, b, none⟩ ∧ lblRow t = s.cfg.rom.length ∧ lblLen t = 0 ∧
      t.dc = s.dc :=
  ⟨emit_none_pendingEvent k b s, hrow, lblLen_of_lblRow_miss hrow, by simp [nextDc, hk]⟩

/-- The state after an event of a counted kind, which has no label. -/
theorem emit_counted_outcome {k : EventKind} (hk : countsInDc k = true) (b : Byte) (s : State) :
    let t := setSt .init (emit k b none s)
    pendingEvent t = some ⟨k, b, none⟩ ∧ lblLen t = 0 ∧ t.dc = s.dc + 1 :=
  ⟨emit_none_pendingEvent k b s, lblLen_of_lblRow_miss (translateRow_of_counts hk _ b),
    by simp [nextDc, Config.hasDiag, hk]⟩

/-! ### A repeated 0xE0 or 0xF0 -/

/-- Inside a sequence 0xE0 can only lead from LONG_CODE to LONG_BREAK_CODE (40_decode_fsm.md R103). -/
theorem afterE0_of_ne_init {q : DecoderState} (h : q ≠ .init) :
    afterE0 q = if q = .longCode then .longBreakCode else q := by
  cases q with
  | init => exact absurd rfl h
  | longCode | breakCode | longBreakCode => rfl

/-- Inside a sequence 0xF0 does what 0xE0 does (40_decode_fsm.md R104). -/
theorem afterF0_eq_afterE0 {q : DecoderState} (h : q ≠ .init) : afterF0 q = afterE0 q := by
  cases q with
  | init => exact absurd rfl h
  | longCode | breakCode | longBreakCode => rfl

theorem legalArm_prefix {b : Byte} {s : State} (hst : s.st ≠ .init) (hb : classOf b ≠ .code) :
    legalArm b s = setSt (afterE0 s.st) s := by
  unfold legalArm
  cases hclass : classOf b with
  | prefixE0 => rfl
  | prefixF0 => exact congrArg (setSt · s) (afterF0_eq_afterE0 hst)
  | code => exact absurd hclass hb

/-- Settles O30: a miss reads the row past the table (AN1, AN2); a break and the default arm give a
counted kind (AN3, AN4); a repeated 0xE0 or 0xF0 moves `st` alone (AN5). -/
theorem anomaliesAreNormalOutcomes : Obligations.AnomaliesAreNormalOutcomes := by
  intro s b free
  refine ⟨fun hst _ hmiss => ?sbMiss, fun hst _ hmiss => ?extMiss, fun hst _ => ?breaks, ?spareCode,
    fun hst hb => ?repeatedPrefix⟩
  case sbMiss =>
    have hrow : lookupSB s.cfg.rom b = s.cfg.rom.length := lookupCol_miss.mpr hmiss
    have hascii : asciiOf s.cfg.rom (lookupSB s.cfg.rom b) = none := by rw [hrow, asciiOf_miss]
    exact ⟨_, exec_code_binaryMake free hst hascii, emit_miss_outcome rfl hrow⟩
  case extMiss =>
    have hrow : lookupEXT s.cfg.rom b = s.cfg.rom.length := lookupCol_miss.mpr hmiss
    exact ⟨_, exec_code_free free hst rfl, emit_miss_outcome rfl hrow⟩
  case breaks =>
    rcases hst with hst | hst
    · rw [if_pos hst]
      exact ⟨_, exec_code_free free hst rfl, emit_counted_outcome rfl b s⟩
    · rw [if_neg (by simp [hst])]
      exact ⟨_, exec_code_free free hst rfl, emit_counted_outcome rfl b s⟩
  case spareCode =>
    have harm : wideByte none b s = setSt .init (emit .invalid b none s) := takeByte_free free
    obtain ⟨hevent, -, hdc⟩ := emit_counted_outcome (k := .invalid) rfl b s
    rw [harm]
    exact ⟨hevent, hdc⟩
  case repeatedPrefix =>
    rw [exec_eq_after, after_decodeByte, takeByte_free free, legalArm_prefix hst hb,
      afterE0_of_ne_init hst]
    rfl

end Sys2Proof.Machine

/-! PROOFS. The reset state, a clear or reset inside a sequence, and the byte a pending event holds back
(70_reset_and_hazards.md R230, R234, R242, R244, R245). -/

namespace Sys2Proof.Machine

/-! ### The reset state -/

/-- The reset state is one that RST does not change. -/
theorem resetRegisters_stateReset : resetRegisters State.reset = State.reset := rfl

theorem eq_resetRegisters_of_exec_rst {s t : State} (h : exec .rst s = .next t) :
    t = resetRegisters s := by
  rw [exec_eq_after] at h
  cases h
  rfl

/-- Settles O6: the register fields as they stand, and the packed word of a reset state. -/
theorem stateResetHoldsTheResetValues : Obligations.StateResetHoldsTheResetValues :=
  ⟨rfl, rfl, rfl, rfl, rfl, rfl, rfl, resetRegisters_stateReset ▸ evr_resetRegisters State.reset⟩

theorem inReady_free {s : State} (free : s.evValid = false) (x : Inputs) :
    inReady s x = (!x.rst && !x.clr) := by
  rw [inReady, free, Bool.not_false, Bool.true_and, Bool.and_comm]

/-- The held kind is AsciiMake and the held code 0x00, so the label row is the lookup of 0x00. -/
theorem lblRow_resetRegisters (s : State) :
    lblRow (resetRegisters s) = lookupSB s.cfg.rom 0x00 := rfl

/-- Settles O7: RST leaves the reset registers, and each output is read off them and the ROM. -/
theorem stateAndOutputsAfterReset : Obligations.StateAndOutputsAfterReset := by
  intro s t x h
  obtain rfl := eq_resetRegisters_of_exec_rst h
  exact ⟨rfl, rfl, rfl, rfl, rfl, rfl, rfl, rfl, inReady_free (resetRegisters_evValid s) x, rfl,
    lblRow_resetRegisters s, rfl, rfl⟩

/-- Settles O38: `State.reset` is a state after RST too. -/
theorem resetIsConsistent : Obligations.ResetIsConsistent := by
  refine ⟨resetRegisters_stateReset ▸ resetRegisters_consistent State.reset, fun s t h => ?_⟩
  rw [eq_resetRegisters_of_exec_rst h]
  exact resetRegisters_consistent s

/-! ### The byte held back by a pending event -/

/-- Settles O40, by induction on the samples: each edge is quiet and leaves the event pending. -/
theorem unacknowledgedEventHoldsTheInputForEver :
    Obligations.UnacknowledgedEventHoldsTheInputForEver := by
  intro s xs rest ok pending hxs h
  induction xs generalizing s with
  | nil => cases h; rfl
  | cons x xs ih =>
    obtain ⟨⟨hrst, hclr, hack⟩, hxs⟩ := List.forall_mem_cons.mp hxs
    have hstep : step s = .next { s with inputs := xs ++ rest } :=
      step_quiet ok h hrst hclr (accepts_pending pending x) (.inl hack)
    rw [List.length_cons, run_succ hstep]
    exact ih { s with inputs := xs ++ rest } ok pending hxs rfl

/-- Settles O41: the pending event holds the byte back at the first edge, so it is offered again at the
second, where nothing is pending. -/
theorem heldByteIsTakenAfterTheAcknowledge : Obligations.HeldByteIsTakenAfterTheAcknowledge := by
  intro s x y rest ok h pending hrst hclr hack hbyte hold hyrst hyclr
  have hwait : accepts s x = false := accepts_pending pending x
  obtain ⟨hybyte, hsame⟩ := hold hbyte hwait
  have hfirst : step s = .next (dropEvent { s with inputs := y :: rest }) :=
    (step_ack ok h hrst hclr hwait hack).trans (exec_ack_pending pending)
  have htaken : accepts (dropEvent { s with inputs := y :: rest }) y = true :=
    (accepts_iff_ports _ _).mpr ⟨hyrst, hyclr, hybyte, dropEvent_evValid _⟩
  rw [run_succ hfirst, run_one, ← hsame]
  exact step_of_accepts ok rfl htaken

/-! ### A clear or reset inside a sequence -/

theorem decode_clr_or_rst {x : Inputs} (hx : x.rst = true ∨ x.clr = true) (v : Bool) :
    decode v x = .clr ∨ decode v x = .rst := by
  cases hrst : x.rst with
  | true => exact .inr (decode_rst hrst)
  | false => exact .inl (decode_clr hrst (hx.resolve_left (by simp [hrst])))

/-- The next sequence begins afresh: in INIT, with nothing pending. -/
theorem step_clr_or_rst {s : State} {x : Inputs} {rest : List Inputs} (ok : RomOk s.cfg)
    (h : s.inputs = x :: rest) (hx : x.rst = true ∨ x.clr = true) :
    ∃ t, step s = .next t ∧ t.cfg = s.cfg ∧ t.evValid = false ∧ t.st = .init ∧
      t.inputs = rest := by
  obtain ⟨hst, hnone⟩ := idle_after_clr_or_rst (decode_clr_or_rst hx s.evValid)
    (exec_eq_after _ { s with inputs := rest })
  refine ⟨_, step_listed ok h, after_cfg _ _, ?_, hst, after_inputs _ _⟩
  rw [← pendingEvent_isSome, hnone, Option.isSome_none]

/-- Settles O47: after the clear or the reset the byte is a whole sequence of the grammar. -/
theorem clearInsideASequenceLosesThePrefix : Obligations.ClearInsideASequenceLosesThePrefix := by
  intro s x b rest ok hx hb h
  obtain ⟨t, hstep, hcfg, free, hst, hin⟩ := step_clr_or_rst ok h hx
  obtain ⟨hrun, -⟩ := sequence_run (ps := []) (hcfg ▸ ok) free hst (by simp) hb hin
  exact ⟨_, (run_succ hstep).trans hrun, hcfg ▸ pastSequence_pendingEvent hst⟩

end Sys2Proof.Machine
